-- ==== Sys2Proof/Word.lean ====
section
/-! DEFINITION. The fixed widths of the block (00_scope.md section 5). -/

namespace Sys2Proof

/-- A byte of `BUF` and the width of `CRC8` (10_state.md R11, R12). -/
abbrev Byte := BitVec 8

/-- A 16-bit integer, and the CRC-16 register (40_bytecodec.md R71; 42_crc16.md R100). -/
abbrev Half := BitVec 16

/-- The unsigned byte offset carried in field `A` (30_encoding.md R51). -/
abbrev Offset := BitVec 16

/-- A 32-bit integer, the width of `RESULT` and of field `B` (10_state.md R13; 30_encoding.md R50). -/
abbrev Word := BitVec 32

/-- A command word: a number, with no byte order (30_encoding.md R50). -/
abbrev Command := BitVec 64

end Sys2Proof
end

