-- ==== Sys2Proof/Config.lean ====
section
/-! DEFINITION. What an implementation fixes (the two parameters of 00_scope.md section 5) and the one free value. -/

namespace Sys2Proof

/-- The two implementation parameters, `BUF_BYTES` and `IMPL_RD16BE` (00_scope.md R2, R3).
DESIGN CHOICE (log 1): they stand in `State`, where no step changes them, so a statement about every state
holds for every choice of them. -/
structure Params where
  /-- `BUF_BYTES`: how many bytes `BUF` has (R2). -/
  bufBytes : Nat
  /-- `IMPL_RD16BE`: whether opcode 0x19 is the command `RD16BE` (R3). -/
  implRd16be : Bool
  deriving DecidableEq, Repr

/-- The range R2 gives `BUF_BYTES`: 1 to 65536. -/
abbrev Params.Valid (p : Params) : Prop := 1 ≤ p.bufBytes ∧ p.bufBytes ≤ 65536

/-- The defaults the spec states: `BUF_BYTES` = 256 and `IMPL_RD16BE` = false (R2, R3). -/
def Params.default : Params := { bufBytes := 256, implRd16be := false }

/-- FREE VALUE (log 3): the unspecified byte that `BUF` holds at an index after the given reset
(10_state.md R21; 93_implementation_defined.md U1). It has no body: nothing can evaluate it. -/
opaque Config.resetByte (resets index : Nat) : Byte

end Sys2Proof
end

