-- ==== Sys2Proof/Syntax.lean ====
section
/-! DEFINITION. The commands: one constructor of `Instr` per row of spec/opcode_table.json (30_encoding.md R53). -/

namespace Sys2Proof

/-- The assigned values of `OP` by name (30_encoding.md R53). -/
inductive Opcode where
  | wr16le | wr16be | wr32le | wr32be
  | rd16le | rd16be | rd32le | rd32be | rdi16le
  | crc8Init | crc8Upd
  | crc16Modbus
  | putb | getb
  deriving DecidableEq, Repr

/-- A command with its operands at their exact widths (30_encoding.md R51, R52): an over-wide operand
cannot be written down, as in the source. -/
inductive Instr where
  /-- `WR16LE a, v` (40_bytecodec.md R72). -/
  | wr16le (a : Offset) (v : Half)
  /-- `WR16BE a, v` (R73). -/
  | wr16be (a : Offset) (v : Half)
  /-- `WR32LE a, v` (R74). -/
  | wr32le (a : Offset) (v : Word)
  /-- `WR32BE a, v` (R75). -/
  | wr32be (a : Offset) (v : Word)
  /-- `RD16LE a` (R76). -/
  | rd16le (a : Offset)
  /-- `RD16BE a`, only under `IMPL_RD16BE` (R78). -/
  | rd16be (a : Offset)
  /-- `RD32LE a` (R79). -/
  | rd32le (a : Offset)
  /-- `RD32BE a` (R80). -/
  | rd32be (a : Offset)
  /-- `RDI16LE a` (R77). -/
  | rdi16le (a : Offset)
  /-- `CRC8.INIT` (41_crc8.md R92). -/
  | crc8Init
  /-- `CRC8.UPD a, n` (R93). -/
  | crc8Upd (a : Offset) (n : Word)
  /-- `CRC16.MODBUS a, n` (42_crc16.md R102). -/
  | crc16Modbus (a : Offset) (n : Word)
  /-- `PUTB a, b` (43_host_access.md R110). -/
  | putb (a : Offset) (b : Byte)
  /-- `GETB a` (R111). -/
  | getb (a : Offset)
  deriving DecidableEq, Repr

/-- Why a word encodes no command (30_encoding.md R54, R55). -/
inductive DecodeError where
  /-- `OP` is none of the assigned values. -/
  | unassignedOp (op : Byte)
  /-- `OP` is assigned and `RSV` is not zero. -/
  | reservedNotZero (o : Opcode)
  /-- A bit of `A` or `B` that the command needs to be 0 is 1. -/
  | mustBeZero (o : Opcode)
  deriving DecidableEq, Repr

end Sys2Proof
end

