-- ==== Sys2Proof/WellFormed.lean ====
section
/-! DEFINITION. Which commands a block with given parameters has. Operand widths are in the types of `Instr`,
so the one check left is the optional command. -/

namespace Sys2Proof

/-- The command exists in a block with these parameters: all do but `RD16BE`, which needs `IMPL_RD16BE`
(00_scope.md R3; 30_encoding.md R54). -/
def Instr.wellFormed (p : Params) : Instr → Bool
  | .rd16be _ => p.implRd16be
  | .wr16le _ _ => true
  | .wr16be _ _ => true
  | .wr32le _ _ => true
  | .wr32be _ _ => true
  | .rd16le _ => true
  | .rd32le _ => true
  | .rd32be _ => true
  | .rdi16le _ => true
  | .crc8Init => true
  | .crc8Upd _ _ => true
  | .crc16Modbus _ _ => true
  | .putb _ _ => true
  | .getb _ => true

end Sys2Proof
end

