-- ==== Sys2Proof/Decode.lean ====
section
/-! DEFINITION. The command word: its fields, the decoder, the encoder, and the opcode map as data (30_encoding.md). -/

namespace Sys2Proof

/-! ## Fields (30_encoding.md R50) -/

/-- Bits 63:56. -/
def Command.op (w : Command) : Byte := w.extractLsb' 56 8

/-- Bits 55:48. -/
def Command.rsv (w : Command) : Byte := w.extractLsb' 48 8

/-- Bits 47:32. -/
def Command.a (w : Command) : Offset := w.extractLsb' 32 16

/-- Bits 31:0. -/
def Command.b (w : Command) : Word := w.extractLsb' 0 32

/-- `cmd = OP ++ RSV ++ A ++ B` (R50). -/
def Command.pack (op rsv : Byte) (a : Offset) (b : Word) : Command := op ++ rsv ++ a ++ b

/-! ## Opcodes (30_encoding.md R53) -/

/-- The `OP` value of each command. -/
def Opcode.byte : Opcode → Byte
  | .wr16le => 0x10
  | .wr16be => 0x11
  | .wr32le => 0x12
  | .wr32be => 0x13
  | .rd16le => 0x18
  | .rd16be => 0x19
  | .rd32le => 0x1A
  | .rd32be => 0x1B
  | .rdi16le => 0x1C
  | .crc8Init => 0x20
  | .crc8Upd => 0x21
  | .crc16Modbus => 0x30
  | .putb => 0x40
  | .getb => 0x41

/-- The command an `OP` value selects, if it is assigned. -/
def opcodeOfByte (op : Byte) : Option Opcode :=
  match op.toNat with
  | 0x10 => some .wr16le
  | 0x11 => some .wr16be
  | 0x12 => some .wr32le
  | 0x13 => some .wr32be
  | 0x18 => some .rd16le
  | 0x19 => some .rd16be
  | 0x1A => some .rd32le
  | 0x1B => some .rd32be
  | 0x1C => some .rdi16le
  | 0x20 => some .crc8Init
  | 0x21 => some .crc8Upd
  | 0x30 => some .crc16Modbus
  | 0x40 => some .putb
  | 0x41 => some .getb
  | _ => none

/-! ## The decoder -/

/-- Reads `A` and `B` as one command's operands; a 1 in a bit that must be 0 is refused (30_encoding.md R52, R55). -/
def decodeOperands (o : Opcode) (a : Offset) (b : Word) : Except DecodeError Instr :=
  match o with
  | .wr16le => if b.extractLsb' 16 16 = 0 then .ok (.wr16le a (b.extractLsb' 0 16)) else .error (.mustBeZero o)
  | .wr16be => if b.extractLsb' 16 16 = 0 then .ok (.wr16be a (b.extractLsb' 0 16)) else .error (.mustBeZero o)
  | .wr32le => .ok (.wr32le a b)
  | .wr32be => .ok (.wr32be a b)
  | .rd16le => if b = 0 then .ok (.rd16le a) else .error (.mustBeZero o)
  | .rd16be => if b = 0 then .ok (.rd16be a) else .error (.mustBeZero o)
  | .rd32le => if b = 0 then .ok (.rd32le a) else .error (.mustBeZero o)
  | .rd32be => if b = 0 then .ok (.rd32be a) else .error (.mustBeZero o)
  | .rdi16le => if b = 0 then .ok (.rdi16le a) else .error (.mustBeZero o)
  | .crc8Init => if a = 0 ∧ b = 0 then .ok .crc8Init else .error (.mustBeZero o)
  | .crc8Upd => .ok (.crc8Upd a b)
  | .crc16Modbus => .ok (.crc16Modbus a b)
  | .putb => if b.extractLsb' 8 24 = 0 then .ok (.putb a (b.extractLsb' 0 8)) else .error (.mustBeZero o)
  | .getb => if b = 0 then .ok (.getb a) else .error (.mustBeZero o)

/-- The decoder over all 14 rows of the opcode map (30_encoding.md R53 to R55). Whether the block has `RD16BE`
is `Instr.wellFormed`, not a matter of the word (log 8). -/
def decode (w : Command) : Except DecodeError Instr :=
  match opcodeOfByte w.op with
  | none => .error (.unassignedOp w.op)
  | some o => if w.rsv = 0 then decodeOperands o w.a w.b else .error (.reservedNotZero o)

/-- The word encodes a command of a block with these parameters; any other word is illegal (30_encoding.md R54). -/
def legal (p : Params) (w : Command) : Bool :=
  match decode w with
  | .ok i => i.wellFormed p
  | .error _ => false

/-! ## The encoder, from the same map -/

/-- The row a command belongs to. -/
def Instr.opcode : Instr → Opcode
  | .wr16le _ _ => .wr16le
  | .wr16be _ _ => .wr16be
  | .wr32le _ _ => .wr32le
  | .wr32be _ _ => .wr32be
  | .rd16le _ => .rd16le
  | .rd16be _ => .rd16be
  | .rd32le _ => .rd32le
  | .rd32be _ => .rd32be
  | .rdi16le _ => .rdi16le
  | .crc8Init => .crc8Init
  | .crc8Upd _ _ => .crc8Upd
  | .crc16Modbus _ _ => .crc16Modbus
  | .putb _ _ => .putb
  | .getb _ => .getb

/-- Field `A` of a command's word: its offset, or 0 where it has none (30_encoding.md R51, R52). -/
def Instr.fieldA : Instr → Offset
  | .wr16le a _ => a
  | .wr16be a _ => a
  | .wr32le a _ => a
  | .wr32be a _ => a
  | .rd16le a => a
  | .rd16be a => a
  | .rd32le a => a
  | .rd32be a => a
  | .rdi16le a => a
  | .crc8Init => 0
  | .crc8Upd a _ => a
  | .crc16Modbus a _ => a
  | .putb a _ => a
  | .getb a => a

/-- Field `B` of a command's word: value, length or byte, zero above it (30_encoding.md R52). -/
def Instr.fieldB : Instr → Word
  | .wr16le _ v => v.setWidth 32
  | .wr16be _ v => v.setWidth 32
  | .wr32le _ v => v
  | .wr32be _ v => v
  | .rd16le _ => 0
  | .rd16be _ => 0
  | .rd32le _ => 0
  | .rd32be _ => 0
  | .rdi16le _ => 0
  | .crc8Init => 0
  | .crc8Upd _ n => n
  | .crc16Modbus _ n => n
  | .putb _ b => b.setWidth 32
  | .getb _ => 0

/-- The word of a command; `RSV` is always 0 (30_encoding.md R50, R60). -/
def encode (i : Instr) : Command := Command.pack i.opcode.byte 0 i.fieldA i.fieldB

/-! ## The opcode map as data (30_encoding.md R53) -/

/-- One row of the opcode map: a word is the row's command iff `w &&& mask = pattern`. -/
structure OpcodeRow where
  opcode : Opcode
  pattern : Command
  mask : Command
  deriving DecidableEq, Repr

/-- The 14 rows with the spec's own `match` and `mask` columns. -/
def opcodeMap : List OpcodeRow :=
  [ ⟨.wr16le, 0x1000000000000000, 0xFFFF0000FFFF0000⟩,
    ⟨.wr16be, 0x1100000000000000, 0xFFFF0000FFFF0000⟩,
    ⟨.wr32le, 0x1200000000000000, 0xFFFF000000000000⟩,
    ⟨.wr32be, 0x1300000000000000, 0xFFFF000000000000⟩,
    ⟨.rd16le, 0x1800000000000000, 0xFFFF0000FFFFFFFF⟩,
    ⟨.rd16be, 0x1900000000000000, 0xFFFF0000FFFFFFFF⟩,
    ⟨.rd32le, 0x1A00000000000000, 0xFFFF0000FFFFFFFF⟩,
    ⟨.rd32be, 0x1B00000000000000, 0xFFFF0000FFFFFFFF⟩,
    ⟨.rdi16le, 0x1C00000000000000, 0xFFFF0000FFFFFFFF⟩,
    ⟨.crc8Init, 0x2000000000000000, 0xFFFFFFFFFFFFFFFF⟩,
    ⟨.crc8Upd, 0x2100000000000000, 0xFFFF000000000000⟩,
    ⟨.crc16Modbus, 0x3000000000000000, 0xFFFF000000000000⟩,
    ⟨.putb, 0x4000000000000000, 0xFFFF0000FFFFFF00⟩,
    ⟨.getb, 0x4100000000000000, 0xFFFF0000FFFFFFFF⟩ ]

/-- The word matches a row: `(cmd & mask) = match` (R53). -/
abbrev OpcodeRow.Matches (r : OpcodeRow) (w : Command) : Prop := w &&& r.mask = r.pattern

/-! ## The host's view of the decoder -/

/-- The command the decoder reads from a word whose bits, numbered as spec/opcode_table.json numbers them, are `w`;
every row has 64 bits and a bit above the given ones is 0 (log 14). -/
def decodeTableWord (nbits w : Nat) : Option Instr :=
  match decode (BitVec.ofNat 64 (w % 2 ^ nbits)) with
  | .ok i => some i
  | .error _ => none

end Sys2Proof
end

