-- ==== Sys2Proof/Machine/State.lean ====
section
/-! DEFINITION. The machine as plain data: the block's five items, the host that drives it, the parameters, and the
reasons a step can stop. -/

namespace Sys2Proof.Machine

/-- `STATUS.CAUSE`, closed: codes 3 to 7 are never produced (10_state.md R14; 93_implementation_defined.md U4). -/
inductive Cause where
  /-- 0: not faulted. -/
  | none
  /-- 1: IndexError, the byte range does not fit `BUF` (60_exceptions.md R121). -/
  | indexError
  /-- 2: IllegalCommand, the word encodes no command (R122). -/
  | illegalCommand
  deriving DecidableEq, Repr

/-- `STATUS.RTYPE`, closed: codes 5 to 7 are never produced (10_state.md R14; 93 U4). -/
inductive RType where
  /-- 0: no value, `RESULT` = 0. -/
  | none
  /-- 1: unsigned 8-bit. -/
  | u8
  /-- 2: unsigned 16-bit. -/
  | u16
  /-- 3: signed 16-bit, raw bits in `RESULT[15:0]`. -/
  | s16
  /-- 4: unsigned 32-bit. -/
  | u32
  deriving DecidableEq, Repr

/-- `STATUS` by its fields; the 8-bit register the host reads is `Status.word` (10_state.md R14; log 11). -/
structure Status where
  /-- Bit 0, the sticky fault latch. -/
  fault : Bool
  /-- Bits 3:1. -/
  cause : Cause
  /-- Bits 6:4, the type of what `RESULT` holds. -/
  rtype : RType
  deriving DecidableEq, Repr

/-- `BUF` as the bytes written since the last reset, in rising order of their index (log 3). -/
abbrev Memory := List Host.Cell

/-- The architectural state of the block: exactly these five items (10_state.md R10). -/
structure Block where
  /-- `BUF` (R11). An index with no entry holds its unspecified reset byte (R21). -/
  buf : Memory
  /-- The CRC-8 accumulator (R12). -/
  crc8 : Byte
  /-- `RESULT` (R13). -/
  result : Word
  /-- `STATUS` (R14). -/
  status : Status
  /-- `FCMD`, the faulting command word (R15). -/
  fcmd : Command
  deriving DecidableEq, Repr

/-- The host's side (10_state.md R17; section 6): what it holds and drives. DESIGN CHOICE (log 2): it stands in
`State` because a step has no other input. -/
structure Driver where
  /-- `prog`, the host's finite list of command words. -/
  prog : List Command
  /-- `pc`, the index of the next word to present; unbounded. -/
  pc : Nat
  /-- The `rst` port: the host's reset event waits to be taken (70_reset_and_hazards.md R140; log 4). -/
  rst : Bool
  deriving DecidableEq, Repr

/-- The block, the host that drives it, and the parameters. -/
structure State where
  /-- `BUF_BYTES` and `IMPL_RD16BE`; no step changes them (00_scope.md R6; log 1). -/
  params : Params
  /-- The block's own state (10_state.md R10). -/
  block : Block
  /-- The host (10_state.md R17). -/
  driver : Driver
  /-- The MODEL'S OWN field (log 4): how many resets the block has taken. It names the free bytes of `BUF`;
  0 says that the block was never reset (93_implementation_defined.md U7). -/
  resets : Nat
  deriving DecidableEq, Repr

/-- Why the machine stops. The block's own faults are no stops: they are latched in `STATUS` (60_exceptions.md R125). -/
inductive Fault where
  /-- Raised by `step` alone: no reset waits and the host's list has no word at `pc`, so no transaction happens and
  nothing changes: the run is over (70_reset_and_hazards.md R150; log 6). Safe: the model stops and claims nothing. -/
  | noCommand
  deriving DecidableEq, Repr

/-- Why the model gives no meaning. -/
inductive Refusal where
  /-- An instruction still without a meaning, by its mnemonic. No arm of `exec` answers it. Safe. -/
  | notModelled (mnemonic : String)
  /-- Raised by `step` alone: a command is presented to a block that was never reset, of which the spec says nothing
  (93_implementation_defined.md U7: refuse; log 7). Safe: the model stops and claims nothing. -/
  | neverReset
  deriving DecidableEq, Repr

/-- What a step and a meaning answer. -/
abbrev Result := Host.Outcome State Fault Refusal

/-- The block's registers right after a reset, `BUF` unspecified (70_reset_and_hazards.md R140; 10_state.md R20 to R24). -/
def Block.afterReset : Block :=
  { buf := [], crc8 := 0, result := 0, status := { fault := false, cause := .none, rtype := .none }, fcmd := 0 }

/-- The machine right after reset with the default parameters (70_reset_and_hazards.md R140; 00_scope.md R2, R3).
The host's list comes from outside and is empty here (log 2). -/
def State.reset : State :=
  { params := Params.default, block := Block.afterReset, driver := { prog := [], pc := 0, rst := false }, resets := 1 }

end Sys2Proof.Machine
end

