-- ==== Sys2Proof/Machine/Ops.lean ====
section
/-! DEFINITION. The named operations over `BUF` and the registers, and the one way a fault is taken
(20_memory.md; 60_exceptions.md). -/

namespace Sys2Proof.Machine

/-! ## Memory: the written bytes, in rising order of index (log 3) -/

/-- The byte written at an index since the last reset, if one was. -/
def Memory.lookup : Memory → Nat → Option Byte
  | [], _ => none
  | (k, b) :: m, i => if i = k then some b else Memory.lookup m i

/-- Writes one byte, keeping the entries in rising order. -/
def Memory.insert : Memory → Nat → Byte → Memory
  | [], i, b => [(i, b)]
  | (k, c) :: m, i, b =>
    if i < k then (i, b) :: (k, c) :: m
    else if i = k then (i, b) :: m
    else (k, c) :: Memory.insert m i b

/-- Writes bytes at consecutive indexes, the first at `addr`. -/
def Memory.insertAll : Memory → Nat → List Byte → Memory
  | m, _, [] => m
  | m, addr, b :: bs => Memory.insertAll (Memory.insert m addr b) (addr + 1) bs

/-- Every index of the memory is at least `lo`, and the indexes rise strictly. -/
def Memory.risingFrom : Nat → Memory → Bool
  | _, [] => true
  | lo, (k, _) :: m => decide (lo ≤ k) && Memory.risingFrom (k + 1) m

/-- The canonical form: indexes strictly rising. No entry can equal what an unlisted index reads as, since that is
a free value (log 3). -/
def Memory.wf (m : Memory) : Bool := Memory.risingFrom 0 m

/-! ## Reading and writing `BUF` (20_memory.md R35 to R37) -/

/-- `BUF[i]`: the last byte written there since the last reset, else the unspecified reset byte (20_memory.md R39;
10_state.md R21). -/
def State.readByte (s : State) (i : Nat) : Byte :=
  (Memory.lookup s.block.buf i).getD (Config.resetByte s.resets i)

/-- `MemRead(addr, n)` (00_scope.md section 6.2): ascending offsets, `BUF[addr]` first (20_memory.md R40). -/
def State.memRead (s : State) : Nat → Nat → List Byte
  | _, 0 => []
  | addr, n + 1 => s.readByte addr :: s.memRead (addr + 1) n

/-- `MemWrite(addr, n, bs)` (00_scope.md section 6.2). -/
def State.memWrite (s : State) (addr : Nat) (bs : List Byte) : State :=
  { s with block := { s.block with buf := Memory.insertAll s.block.buf addr bs } }

/-- `in_range(addr, n)`, in the unbounded naturals (20_memory.md R36). -/
abbrev State.InRange (s : State) (addr n : Nat) : Prop := addr + n ≤ s.params.bufBytes

/-! ## Registers -/

/-- `CRC8 <- v` (10_state.md R12). -/
def State.setCrc8 (s : State) (v : Byte) : State := { s with block := { s.block with crc8 := v } }

/-- `return v as T` and `pc <- pc + 1` (00_scope.md section 6.2; 10_state.md R13, R14, R17): how every command that
does not fault ends. `v` is already zero-extended. -/
def State.finish (s : State) (v : Word) (t : RType) : State :=
  { s with
    block := { s.block with result := v, status := { s.block.status with rtype := t } }
    driver := { s.driver with pc := s.driver.pc + 1 } }

/-- `return nothing` and `pc <- pc + 1`. -/
def State.finishNothing (s : State) : State := s.finish 0 .none

/-! ## Faults (60_exceptions.md) -/

/-- Fault entry, the whole effect of a faulting command (60_exceptions.md R125, R126). -/
def State.raise (s : State) (k : Cause) (cmd : Command) : State :=
  { s with
    block := { s.block with
      status := { s.block.status with fault := true, cause := k }
      fcmd := cmd } }

/-- The order of the checks for a presented command that has a byte range (60_exceptions.md R124): ignored while
faulted (R127), else IndexError if the range does not fit (R121), else the command's own effect. -/
def State.ranged (s : State) (cmd : Command) (addr n : Nat) (effect : State → State) : Result :=
  if s.block.status.fault = true then .next s
  else if s.InRange addr n then .next (effect s)
  else .next (s.raise .indexError cmd)

/-- The same for a command with no byte range (R124; only `CRC8.INIT`, R121). -/
def State.unranged (s : State) (effect : State → State) : Result :=
  if s.block.status.fault = true then .next s else .next (effect s)

/-- A word that encodes no command of this block (R122, R124, R127). -/
def State.illegal (s : State) (cmd : Command) : Result :=
  if s.block.status.fault = true then .next s else .next (s.raise .illegalCommand cmd)

/-! ## Reset (70_reset_and_hazards.md) -/

/-- The host's reset event (70_reset_and_hazards.md R140): every register to its reset value, `BUF` unspecified
anew, the host's `pc` to 0, the event consumed. -/
def State.takeReset (s : State) : State :=
  { s with
    block := Block.afterReset
    driver := { s.driver with pc := 0, rst := false }
    resets := s.resets + 1 }

end Sys2Proof.Machine
end

