-- ==== Sys2Proof/Machine/Operands.lean ====
section
/-! DEFINITION. Operand forms: how an integer is mapped to bytes of `BUF` and back, and how a result is widened
(20_memory.md R32, R33; 40_bytecodec.md R71). -/

namespace Sys2Proof.Machine

/-- The two bytes of a 16-bit integer, least significant first (20_memory.md R32). -/
def bytesLe16 (v : Half) : List Byte := [v.extractLsb' 0 8, v.extractLsb' 8 8]

/-- The two bytes of a 16-bit integer, most significant first (R33). -/
def bytesBe16 (v : Half) : List Byte := [v.extractLsb' 8 8, v.extractLsb' 0 8]

/-- The four bytes of a 32-bit integer, least significant first (R32). -/
def bytesLe32 (v : Word) : List Byte :=
  [v.extractLsb' 0 8, v.extractLsb' 8 8, v.extractLsb' 16 8, v.extractLsb' 24 8]

/-- The four bytes of a 32-bit integer, most significant first (R33). -/
def bytesBe32 (v : Word) : List Byte :=
  [v.extractLsb' 24 8, v.extractLsb' 16 8, v.extractLsb' 8 8, v.extractLsb' 0 8]

/-- `BUF[a+1] ++ BUF[a]` (40_bytecodec.md R76, R77). -/
def State.readLe16 (s : State) (a : Nat) : Half := s.readByte (a + 1) ++ s.readByte a

/-- `BUF[a] ++ BUF[a+1]` (R78). -/
def State.readBe16 (s : State) (a : Nat) : Half := s.readByte a ++ s.readByte (a + 1)

/-- `BUF[a+3] ++ BUF[a+2] ++ BUF[a+1] ++ BUF[a]` (R79). -/
def State.readLe32 (s : State) (a : Nat) : Word :=
  s.readByte (a + 3) ++ s.readByte (a + 2) ++ s.readByte (a + 1) ++ s.readByte a

/-- `BUF[a] ++ BUF[a+1] ++ BUF[a+2] ++ BUF[a+3]` (R80). -/
def State.readBe32 (s : State) (a : Nat) : Word :=
  s.readByte a ++ s.readByte (a + 1) ++ s.readByte (a + 2) ++ s.readByte (a + 3)

/-- `zext_32` of a byte (10_state.md R13). -/
def zextByte (v : Byte) : Word := v.setWidth 32

/-- `zext_32` of a 16-bit value, the signed one too: its upper half stays 0 (10_state.md R13; 40_bytecodec.md R71). -/
def zextHalf (v : Half) : Word := v.setWidth 32

end Sys2Proof.Machine
end

