-- ==== Sys2Proof/Machine/ByteCodec.lean ====
section
/-! DEFINITION. The ByteCodec commands (40_bytecodec.md). Every one follows the template of R70. -/

namespace Sys2Proof.Machine

/-- A ByteCodec write: `w` bytes at `A`, then return nothing (R70). -/
def State.storeInt (s : State) (cmd : Command) (a : Offset) (bs : List Byte) : Result :=
  s.ranged cmd a.toNat bs.length fun s => (s.memWrite a.toNat bs).finishNothing

/-- A ByteCodec read of `w` bytes at `A`, returned under a type (R70). -/
def State.loadInt (s : State) (cmd : Command) (a : Offset) (w : Nat) (v : State → Word) (t : RType) : Result :=
  s.ranged cmd a.toNat w fun s => s.finish (v s) t

/-- `WR16LE a, v` (R72). -/
def execWr16le (a : Offset) (v : Half) (s : State) : Result :=
  s.storeInt (encode (.wr16le a v)) a (bytesLe16 v)

/-- `WR16BE a, v` (R73). -/
def execWr16be (a : Offset) (v : Half) (s : State) : Result :=
  s.storeInt (encode (.wr16be a v)) a (bytesBe16 v)

/-- `WR32LE a, v` (R74). -/
def execWr32le (a : Offset) (v : Word) (s : State) : Result :=
  s.storeInt (encode (.wr32le a v)) a (bytesLe32 v)

/-- `WR32BE a, v` (R75). -/
def execWr32be (a : Offset) (v : Word) (s : State) : Result :=
  s.storeInt (encode (.wr32be a v)) a (bytesBe32 v)

/-- `RD16LE a` (R76). -/
def execRd16le (a : Offset) (s : State) : Result :=
  s.loadInt (encode (.rd16le a)) a 2 (fun s => zextHalf (s.readLe16 a.toNat)) .u16

/-- `RD16BE a` (R78). In a block without it the word is illegal (00_scope.md R3; 30_encoding.md R54), and that is
checked before the range (60_exceptions.md R124). -/
def execRd16be (a : Offset) (s : State) : Result :=
  if s.params.implRd16be = true then
    s.loadInt (encode (.rd16be a)) a 2 (fun s => zextHalf (s.readBe16 a.toNat)) .u16
  else s.illegal (encode (.rd16be a))

/-- `RD32LE a` (R79). -/
def execRd32le (a : Offset) (s : State) : Result :=
  s.loadInt (encode (.rd32le a)) a 4 (fun s => s.readLe32 a.toNat) .u32

/-- `RD32BE a` (R80). -/
def execRd32be (a : Offset) (s : State) : Result :=
  s.loadInt (encode (.rd32be a)) a 4 (fun s => s.readBe32 a.toNat) .u32

/-- `RDI16LE a` (R77): the raw bits of `RD16LE`, typed signed, not widened (R71). -/
def execRdi16le (a : Offset) (s : State) : Result :=
  s.loadInt (encode (.rdi16le a)) a 2 (fun s => zextHalf (s.readLe16 a.toNat)) .s16

end Sys2Proof.Machine
end

