-- ==== Sys2Proof/Machine/Crc16.lean ====
section
/-! DEFINITION. The CRC-16/MODBUS algorithm and its command (42_crc16.md). Its register is transient: no state
(10_state.md R19). -/

namespace Sys2Proof.Machine

/-- One iteration of R100: bit 0 is tested before the shift, and 0xA001 is XORed after it. -/
def crc16Shift (t : Half) : Half := if t.getLsbD 0 then (t >>> 1) ^^^ 0xA001 else t >>> 1

/-- `crc16_byte(r, b)` (R100). -/
def crc16Byte (r : Half) (b : Byte) : Half := Nat.iterate crc16Shift 8 (r ^^^ b.setWidth 16)

/-- `crc16_bytes(bs)` (R101): seeded with 0xFFFF, no output step (90_conflicts.md C3). -/
def crc16Bytes (bs : List Byte) : Half := bs.foldl crc16Byte 0xFFFF

/-- `CRC16.MODBUS a, n` (R102). -/
def execCrc16Modbus (a : Offset) (n : Word) (s : State) : Result :=
  s.ranged (encode (.crc16Modbus a n)) a.toNat n.toNat fun s =>
    s.finish (zextHalf (crc16Bytes (s.memRead a.toNat n.toNat))) .u16

end Sys2Proof.Machine
end

