-- ==== Sys2Proof/Machine/Crc8.lean ====
section
/-! DEFINITION. The CRC-8 algorithm and its commands (41_crc8.md). -/

namespace Sys2Proof.Machine

/-- One iteration of R90: bit 7 is tested before the shift, and 0x07 is XORed after it (90_conflicts.md C2). -/
def crc8Shift (t : Byte) : Byte := if t.getLsbD 7 then (t <<< 1) ^^^ 0x07 else t <<< 1

/-- `crc8_byte(c, b)` (R90). -/
def crc8Byte (c b : Byte) : Byte := Nat.iterate crc8Shift 8 (c ^^^ b)

/-- `crc8_bytes(c, bs)` (R91): first byte first. -/
def crc8Bytes (c : Byte) (bs : List Byte) : Byte := bs.foldl crc8Byte c

/-- `CRC8.INIT` (R92). -/
def execCrc8Init (s : State) : Result := s.unranged fun s => (s.setCrc8 0).finishNothing

/-- The effect of `CRC8.UPD a, n` on a range that fits (R93). -/
def State.crc8Update (s : State) (addr n : Nat) : State :=
  let c := crc8Bytes s.block.crc8 (s.memRead addr n)
  (s.setCrc8 c).finish (zextByte c) .u8

/-- `CRC8.UPD a, n` (R93). -/
def execCrc8Upd (a : Offset) (n : Word) (s : State) : Result :=
  s.ranged (encode (.crc8Upd a n)) a.toNat n.toNat fun s => s.crc8Update a.toNat n.toNat

end Sys2Proof.Machine
end

