-- ==== Sys2Proof/Machine/HostAccess.lean ====
section
/-! DEFINITION. The host's byte path into and out of `BUF` (43_host_access.md). -/

namespace Sys2Proof.Machine

/-- `PUTB a, b` (R110). -/
def execPutb (a : Offset) (b : Byte) (s : State) : Result :=
  s.ranged (encode (.putb a b)) a.toNat 1 fun s => (s.memWrite a.toNat [b]).finishNothing

/-- `GETB a` (R111). -/
def execGetb (a : Offset) (s : State) : Result :=
  s.ranged (encode (.getb a)) a.toNat 1 fun s => s.finish (zextByte (s.readByte a.toNat)) .u8

end Sys2Proof.Machine
end

