-- ==== Sys2Proof/Machine/Dispatch.lean ====
section
/-! DEFINITION. One arm per command. -/

namespace Sys2Proof.Machine

/-- What a presented command does: every arm one direct call of its meaning. -/
def exec (i : Instr) (s : State) : Host.Outcome State Fault Refusal :=
  match i with
  | .wr16le a v => Sys2Proof.Machine.execWr16le a v s
  | .wr16be a v => Sys2Proof.Machine.execWr16be a v s
  | .wr32le a v => Sys2Proof.Machine.execWr32le a v s
  | .wr32be a v => Sys2Proof.Machine.execWr32be a v s
  | .rd16le a => Sys2Proof.Machine.execRd16le a s
  | .rd16be a => Sys2Proof.Machine.execRd16be a s
  | .rd32le a => Sys2Proof.Machine.execRd32le a s
  | .rd32be a => Sys2Proof.Machine.execRd32be a s
  | .rdi16le a => Sys2Proof.Machine.execRdi16le a s
  | .crc8Init => Sys2Proof.Machine.execCrc8Init s
  | .crc8Upd a n => Sys2Proof.Machine.execCrc8Upd a n s
  | .crc16Modbus a n => Sys2Proof.Machine.execCrc16Modbus a n s
  | .putb a b => Sys2Proof.Machine.execPutb a b s
  | .getb a => Sys2Proof.Machine.execGetb a s

end Sys2Proof.Machine
end

