-- ==== Sys2Proof/Machine/Present.lean ====
section
/-! DEFINITION. One transaction: a word presented to the block, and the host's next action. -/

namespace Sys2Proof.Machine

/-- The host presents one word, any word at all, and the block executes it to completion
(10_state.md section 6; 60_exceptions.md R124; 20_memory.md R37). -/
def State.present (s : State) (w : Command) : Result :=
  match decode w with
  | .ok i => exec i s
  | .error _ => s.illegal w

/-- The host's next action: a waiting reset first (70_reset_and_hazards.md R140), else the word at `pc`
(10_state.md R17). A block never reset has no meaning (93_implementation_defined.md U7; log 7); at the end of the
list no transaction happens (70 R150; log 6). -/
def State.transact (s : State) : Result :=
  if s.driver.rst = true then .next s.takeReset
  else match s.driver.prog[s.driver.pc]? with
    | none => .fault .noCommand
    | some w => if s.resets = 0 then .refused .neverReset else s.present w

end Sys2Proof.Machine
end

