-- ==== Sys2Proof/Machine/Step.lean ====
section
/-! DEFINITION. One step of the machine: one action of the host and the block's whole answer to it. -/

namespace Sys2Proof.Machine

/-- One step: a transaction is one atomic step (20_memory.md R37, R39). -/
def step (s : State) : Host.Outcome State Fault Refusal := s.transact

/-- The state with one word as the host's whole list and `pc` at it, so that the next step presents exactly that word
(log 2, log 14). A waiting reset is withdrawn, and a block that was never reset counts as reset: a step presents no
word otherwise. -/
def State.withFetchWord (s : State) (nbits w : Nat) : State :=
  { s with
    driver := { prog := [BitVec.ofNat 64 (w % 2 ^ nbits)], pc := 0, rst := false }
    resets := max 1 s.resets }

end Sys2Proof.Machine
end

