-- ==== Sys2Proof/Machine/Assembler.lean ====
section
/-! DEFINITION. The assembler syntax and the two pseudo-instructions (30_encoding.md R60 to R62; log 15).
Text is a list of characters. -/

namespace Sys2Proof.Machine

/-! ## Operands that fit (R60) -/

/-- The operand as a field of `w` bits; a number that does not fit is rejected, not truncated (R60). -/
def operandOfNat (w n : Nat) : Option (BitVec w) := if n < 2 ^ w then some (BitVec.ofNat w n) else none

/-- An offset and a second operand. -/
def assembleTwo {w : Nat} (f : Offset → BitVec w → Instr) : List Nat → Option Instr
  | [a, b] => (operandOfNat 16 a).bind fun a => (operandOfNat w b).map fun b => f a b
  | _ => none

/-- An offset alone. -/
def assembleOne (f : Offset → Instr) : List Nat → Option Instr
  | [a] => (operandOfNat 16 a).map f
  | _ => none

/-- The command with these operands, in the forms R60 lists. -/
def assembleForm (o : Opcode) (ops : List Nat) : Option Instr :=
  match o with
  | .wr16le => assembleTwo .wr16le ops
  | .wr16be => assembleTwo .wr16be ops
  | .wr32le => assembleTwo .wr32le ops
  | .wr32be => assembleTwo .wr32be ops
  | .rd16le => assembleOne .rd16le ops
  | .rd16be => assembleOne .rd16be ops
  | .rd32le => assembleOne .rd32le ops
  | .rd32be => assembleOne .rd32be ops
  | .rdi16le => assembleOne .rdi16le ops
  | .crc8Init => if ops = [] then some .crc8Init else none
  | .crc8Upd => assembleTwo .crc8Upd ops
  | .crc16Modbus => assembleTwo .crc16Modbus ops
  | .putb => assembleTwo .putb ops
  | .getb => assembleOne .getb ops

/-- The assembler never emits a word that is illegal for its block (R60): `RD16BE` needs `IMPL_RD16BE`. -/
def assemble (p : Params) (o : Opcode) (ops : List Nat) : Option Instr :=
  (assembleForm o ops).filter (·.wellFormed p)

/-- The operands of a command as the numbers of its form (R60). -/
def operandNumbers : Instr → List Nat
  | .wr16le a v => [a.toNat, v.toNat]
  | .wr16be a v => [a.toNat, v.toNat]
  | .wr32le a v => [a.toNat, v.toNat]
  | .wr32be a v => [a.toNat, v.toNat]
  | .rd16le a => [a.toNat]
  | .rd16be a => [a.toNat]
  | .rd32le a => [a.toNat]
  | .rd32be a => [a.toNat]
  | .rdi16le a => [a.toNat]
  | .crc8Init => []
  | .crc8Upd a n => [a.toNat, n.toNat]
  | .crc16Modbus a n => [a.toNat, n.toNat]
  | .putb a b => [a.toNat, b.toNat]
  | .getb a => [a.toNat]

/-- `CRC8.GET` is `CRC8.UPD 0, 0` (R61). -/
def crc8Get : Instr := .crc8Upd 0 0

/-- `PUTS a, {b0, ..}` is one `PUTB` per byte at consecutive offsets (R62); an offset or a byte that does not fit
its field is rejected (R60). -/
def assemblePuts : Nat → List Nat → Option (List Instr)
  | _, [] => some []
  | a, b :: bs =>
    (assembleForm .putb [a, b]).bind fun i => (assemblePuts (a + 1) bs).map fun is => i :: is

/-! ## Text (R60) -/

/-- The mnemonics, letter for letter. -/
def mnemonic : Opcode → List Char
  | .wr16le => ['W', 'R', '1', '6', 'L', 'E']
  | .wr16be => ['W', 'R', '1', '6', 'B', 'E']
  | .wr32le => ['W', 'R', '3', '2', 'L', 'E']
  | .wr32be => ['W', 'R', '3', '2', 'B', 'E']
  | .rd16le => ['R', 'D', '1', '6', 'L', 'E']
  | .rd16be => ['R', 'D', '1', '6', 'B', 'E']
  | .rd32le => ['R', 'D', '3', '2', 'L', 'E']
  | .rd32be => ['R', 'D', '3', '2', 'B', 'E']
  | .rdi16le => ['R', 'D', 'I', '1', '6', 'L', 'E']
  | .crc8Init => ['C', 'R', 'C', '8', '.', 'I', 'N', 'I', 'T']
  | .crc8Upd => ['C', 'R', 'C', '8', '.', 'U', 'P', 'D']
  | .crc16Modbus => ['C', 'R', 'C', '1', '6', '.', 'M', 'O', 'D', 'B', 'U', 'S']
  | .putb => ['P', 'U', 'T', 'B']
  | .getb => ['G', 'E', 'T', 'B']

/-- Every row of the opcode map. -/
def allOpcodes : List Opcode := opcodeMap.map (·.opcode)

/-- A blank inside a line. -/
def isBlank (c : Char) : Bool := c == ' ' || c == '\t' || c == '\r'

/-- The text without the blanks around it. -/
def trimBlanks (cs : List Char) : List Char := ((cs.dropWhile isBlank).reverse.dropWhile isBlank).reverse

/-- The text before the first comment mark `--`. -/
def beforeComment : List Char → List Char
  | [] => []
  | '-' :: '-' :: _ => []
  | c :: cs => c :: beforeComment cs

/-- The text split at every occurrence of a character. -/
def splitAt (sep : Char) : List Char → List (List Char)
  | [] => [[]]
  | c :: cs =>
    match splitAt sep cs with
    | [] => [[]]
    | h :: t => if c = sep then [] :: h :: t else (c :: h) :: t

/-- The value of a digit in a base of at most 16. -/
def digitValue (base : Nat) (c : Char) : Option Nat :=
  let n := c.toNat
  let v :=
    if 48 ≤ n ∧ n ≤ 57 then some (n - 48)
    else if 97 ≤ n ∧ n ≤ 102 then some (n - 87)
    else if 65 ≤ n ∧ n ≤ 70 then some (n - 55)
    else none
  v.filter fun d => d < base

/-- The digits of a number, most significant first. -/
def digitsValue (base acc : Nat) : List Char → Option Nat
  | [] => some acc
  | c :: cs => (digitValue base c).bind fun d => digitsValue base (acc * base + d) cs

/-- A natural number, decimal or hexadecimal after `0x` (R60). -/
def parseNumber : List Char → Option Nat
  | [] => none
  | ['0', 'x'] => none
  | '0' :: 'x' :: cs => digitsValue 16 0 cs
  | cs => digitsValue 10 0 cs

/-- Numbers separated by commas; no text is no number. -/
def parseNumbers (cs : List Char) : Option (List Nat) :=
  if trimBlanks cs = [] then some []
  else (splitAt ',' cs).mapM fun t => parseNumber (trimBlanks t)

/-- The operands of `PUTS`: an offset, a comma, and numbers between braces (R62). The braces are the characters
123 and 125. -/
def parsePuts (cs : List Char) : Option (List Instr) :=
  let offset := cs.takeWhile (· != ',')
  let rest := trimBlanks ((cs.dropWhile (· != ',')).drop 1)
  match rest, rest.getLast? with
  | c :: inner, some l =>
    if c.toNat = 123 ∧ l.toNat = 125 ∧ inner ≠ [] then
      (parseNumber (trimBlanks offset)).bind fun a => (parseNumbers inner.dropLast).bind (assemblePuts a)
    else none
  | _, _ => none

/-- One line: a command, a pseudo-instruction, or nothing but blanks and a comment (R60 to R62). -/
def assembleLine (p : Params) (line : List Char) : Option (List Instr) :=
  let text := trimBlanks (beforeComment line)
  let name := text.takeWhile fun c => !isBlank c
  let rest := text.dropWhile fun c => !isBlank c
  if text = [] then some []
  else if name = ['C', 'R', 'C', '8', '.', 'G', 'E', 'T'] then if rest = [] then some [crc8Get] else none
  else if name = ['P', 'U', 'T', 'S'] then parsePuts rest
  else (allOpcodes.find? fun o => mnemonic o == name).bind fun o =>
    (parseNumbers rest).bind fun ops => (assemble p o ops).map fun i => [i]

/-- One command per line (R60): the words of a program text, or none if a line is rejected. -/
def assembleText (p : Params) (text : List Char) : Option (List Command) :=
  ((splitAt '\n' text).mapM (assembleLine p)).map fun ls => (ls.flatten).map encode

end Sys2Proof.Machine
end

