-- ==== Sys2Proof/Machine/Flags.lean ====
section
/-! DEFINITION. The outputs the host reads: `STATUS` as its 8-bit register, and the value a command returned
(10_state.md R14). The block has no arithmetic flags (R18). -/

namespace Sys2Proof.Machine

/-- The 3-bit `CAUSE` code (10_state.md R14). -/
def Cause.code : Cause → BitVec 3
  | .none => 0
  | .indexError => 1
  | .illegalCommand => 2

/-- The 3-bit `RTYPE` code (10_state.md R14). -/
def RType.code : RType → BitVec 3
  | .none => 0
  | .u8 => 1
  | .u16 => 2
  | .s16 => 3
  | .u32 => 4

/-- `STATUS` as the host reads it: bit 7 is 0, then RTYPE, CAUSE, FAULT (10_state.md R14). -/
def Status.word (s : Status) : Byte := 0#1 ++ s.rtype.code ++ s.cause.code ++ BitVec.ofBool s.fault

/-- The width of a returned value, 0 for none (10_state.md R13, R14). -/
def RType.width : RType → Nat
  | .none => 0
  | .u8 => 8
  | .u16 => 16
  | .s16 => 16
  | .u32 => 32

/-- `value(RESULT, RTYPE)`: what a command returned, as an integer (10_state.md R14). -/
def resultValue (r : Word) : RType → Option Int
  | .none => none
  | .u8 => some (r.extractLsb' 0 8).toNat
  | .u16 => some (r.extractLsb' 0 16).toNat
  | .s16 => some (r.extractLsb' 0 16).toInt
  | .u32 => some r.toNat

/-- What the host can read between transactions, with no side effect (10_state.md R13 to R15; 70_reset_and_hazards.md R149). -/
structure Outputs where
  result : Word
  status : Byte
  fcmd : Command
  deriving DecidableEq, Repr

/-- The three output registers. -/
def State.outputs (s : State) : Outputs :=
  { result := s.block.result, status := s.block.status.word, fcmd := s.block.fcmd }

/-- The value the last completed command returned. -/
def State.value (s : State) : Option Int := resultValue s.block.result s.block.status.rtype

end Sys2Proof.Machine
end

