-- ==== Sys2Proof/Safety.lean ====
section
/-! DEFINITION. What counts as a good state and a good end of a run, in the terms the statements use. -/

namespace Sys2Proof.Machine

/-! ## How a run stands (70_reset_and_hazards.md R150) -/

/-- The two ways a run can end, and a run still going on. -/
inductive Verdict where
  /-- Words are left and no fault is latched. -/
  | running
  /-- `pc = n` and `FAULT = 0`: the only final state. -/
  | endedWell
  /-- A fault is latched: a fault outcome, never a final state (60_exceptions.md R127). -/
  | endedInFault (k : Cause)
  deriving DecidableEq, Repr

/-- Where the run stands (R150). -/
def State.verdict (s : State) : Verdict :=
  if s.block.status.fault = true then .endedInFault s.block.status.cause
  else if s.driver.prog.length ≤ s.driver.pc then .endedWell
  else .running

/-- Launch premises (70_reset_and_hazards.md R151 (a), (b)): reset, nothing waiting, no fault; parameters and known
bytes of `BUF` are named beside it. -/
structure State.Launch (s : State) : Prop where
  valid : s.params.Valid
  wasReset : 0 < s.resets
  noReset : s.driver.rst = false
  noFault : s.block.status.fault = false

/-! ## The invariant -/

/-- What holds of every state a run reaches. -/
structure State.Inv (s : State) : Prop where
  /-- `BUF_BYTES` is in its range (00_scope.md R2). -/
  valid : s.params.Valid
  /-- The block was reset (R150). -/
  wasReset : 0 < s.resets
  /-- The memory is canonical. -/
  memWf : Memory.wf s.block.buf = true
  /-- No byte outside `BUF` was ever written (20_memory.md R35, R36). -/
  memInside : ∀ c ∈ s.block.buf, c.1 < s.params.bufBytes
  /-- `FAULT = 0` iff `CAUSE = 0` (10_state.md R14). -/
  faultCause : s.block.status.fault = false ↔ s.block.status.cause = .none
  /-- `FCMD` is 0 until a command faults (R15). -/
  fcmdZero : s.block.status.fault = false → s.block.fcmd = 0
  /-- The faulting command is `prog[pc]`, and `FCMD` holds it (R17 (b)). -/
  fcmdHeld : s.block.status.fault = true → s.driver.prog[s.driver.pc]? = some s.block.fcmd
  /-- `RESULT` has no bit above the width of what it holds (R13). -/
  resultFits : s.block.result.toNat < 2 ^ s.block.status.rtype.width
  /-- `pc` never passes the end of the list (R17). -/
  pcInside : s.driver.pc ≤ s.driver.prog.length

/-! ## Frames -/

/-- Every byte of the memory outside the `n` bytes at `addr` reads as before. -/
def State.SameBytesOutside (s t : State) (addr n : Nat) : Prop :=
  ∀ i, (i < addr ∨ addr + n ≤ i) → t.readByte i = s.readByte i

/-- Every byte of the memory reads as before. -/
def State.SameBytes (s t : State) : Prop := ∀ i, t.readByte i = s.readByte i

/-- What no command changes: the parameters, the count of resets, the host's list and its reset event; and, unless the
command faults, `CAUSE` and `FCMD` (10_state.md R14, R15, R17). -/
structure State.KeepsRest (s t : State) : Prop where
  params : t.params = s.params
  resets : t.resets = s.resets
  prog : t.driver.prog = s.driver.prog
  rst : t.driver.rst = s.driver.rst
  latch : t.block.status.fault = s.block.status.fault →
    t.block.status.cause = s.block.status.cause ∧ t.block.fcmd = s.block.fcmd

/-- The command completed and returned `v` under type `ty` (10_state.md R13, R14, R17): `RESULT`, `RTYPE` and the
host's `pc` are written, and `FAULT`, `CAUSE`, `FCMD`, the rest of the host, the parameters and the count of resets
are as before. `BUF` and `CRC8` are not spoken of. -/
structure State.Returned (s t : State) (v : Word) (ty : RType) : Prop where
  result : t.block.result = v
  rtype : t.block.status.rtype = ty
  fault : t.block.status.fault = s.block.status.fault
  cause : t.block.status.cause = s.block.status.cause
  fcmd : t.block.fcmd = s.block.fcmd
  pc : t.driver.pc = s.driver.pc + 1
  prog : t.driver.prog = s.driver.prog
  rst : t.driver.rst = s.driver.rst
  params : t.params = s.params
  resets : t.resets = s.resets

/-- Fault entry (60_exceptions.md R125): the latch, the cause and `FCMD` are written, and everything else is as before. -/
structure State.Faulted (s t : State) (k : Cause) (cmd : Command) : Prop where
  fault : t.block.status.fault = true
  cause : t.block.status.cause = k
  fcmd : t.block.fcmd = cmd
  buf : t.block.buf = s.block.buf
  crc8 : t.block.crc8 = s.block.crc8
  result : t.block.result = s.block.result
  rtype : t.block.status.rtype = s.block.status.rtype
  driver : t.driver = s.driver
  params : t.params = s.params
  resets : t.resets = s.resets

/-! ## Byte counts (20_memory.md R35) -/

/-- How many bytes from its offset a command touches; `CRC8.INIT` touches none. -/
def byteCount : Instr → Nat
  | .wr16le _ _ => 2
  | .wr16be _ _ => 2
  | .wr32le _ _ => 4
  | .wr32be _ _ => 4
  | .rd16le _ => 2
  | .rd16be _ => 2
  | .rd32le _ => 4
  | .rd32be _ => 4
  | .rdi16le _ => 2
  | .crc8Init => 0
  | .crc8Upd _ n => n.toNat
  | .crc16Modbus _ n => n.toNat
  | .putb _ _ => 1
  | .getb _ => 1

/-! ## Unassigned `OP` values (30_encoding.md R54) -/

/-- The `OP` values that R54 lists as illegal, for a block with these parameters. -/
def unassignedOp (p : Params) (n : Nat) : Bool :=
  decide (n ≤ 0x0F) || decide (0x14 ≤ n ∧ n ≤ 0x17) || (decide (n = 0x19) && !p.implRd16be) ||
    decide (0x1D ≤ n ∧ n ≤ 0x1F) || decide (0x22 ≤ n ∧ n ≤ 0x2F) || decide (0x31 ≤ n ∧ n ≤ 0x3F) || decide (0x42 ≤ n)

/-! ## Program text (30_encoding.md R60) -/

/-- The text is the digits of the number in a base of at most 16, leading zeros or not, letters small or capital. -/
def DigitsText (base : Nat) (t : List Char) (n : Nat) : Prop :=
  ∃ ds : List Nat, ds ≠ [] ∧ (∀ d ∈ ds, d < base) ∧
    List.Forall₂ (fun c d => c = Nat.digitChar d ∨ c = (Nat.digitChar d).toUpper) t ds ∧
    n = ds.foldl (fun m d => m * base + d) 0

/-- The text is a spelling of the number: decimal digits, or hexadecimal digits after `0x`. -/
def NumberText (t : List Char) (n : Nat) : Prop :=
  DigitsText 10 t n ∨ ∃ u, t = '0' :: 'x' :: u ∧ DigitsText 16 u n

/-- The text is the list of operands of a form: none, one after a blank, or two with a comma between. -/
def OperandsText (t : List Char) : List Nat → Prop
  | [] => t = []
  | [a] => ∃ ta, NumberText ta a ∧ t = ' ' :: ta
  | [a, b] => ∃ ta tb, NumberText ta a ∧ NumberText tb b ∧ t = ' ' :: ta ++ ',' :: ' ' :: tb
  | _ => False

/-- The line is the command written in its form, with nothing or a comment after it. -/
def CommandText (line : List Char) (i : Instr) : Prop :=
  ∃ ops comment, OperandsText ops (operandNumbers i) ∧ line = mnemonic i.opcode ++ ops ++ comment ∧
    (comment = [] ∨ ∃ c, '\n' ∉ c ∧ comment = ' ' :: '-' :: '-' :: c)

end Sys2Proof.Machine
end

