-- ==== Sys2Proof/Certificates/Slice0/Obligations.lean ====
section
/-! DEFINITION. The statements for the provers. Each docstring names the rule of spec/ it formalises. -/

open Sys2Proof Sys2Proof.Machine

/-! ## Encoding (30_encoding.md) -/

/-- Every command decodes from its own word, with every operand at every value (R50 to R53). -/
def Obligations.DecodeOfEncodeIsIdentity : Prop := ∀ i : Instr, decode (encode i) = .ok i

/-- A word that decodes is exactly the word of what it decodes to, so no bit of it is dropped, and `A` and `B` are
read as they stand (R50, R51, R52, R55). -/
def Obligations.DecodedWordIsExact : Prop :=
  ∀ (w : Command) (i : Instr), decode w = .ok i →
    encode i = w ∧ i.fieldA = w.a ∧ i.fieldB = w.b ∧
      w.toNat = i.opcode.byte.toNat * 2 ^ 56 + i.fieldA.toNat * 2 ^ 32 + i.fieldB.toNat

/-- R53: a word encodes the command of a row iff `cmd & mask = match`; the rows are mutually exclusive; a word that
matches no row encodes no command; `RD16BE`'s row counts only under `IMPL_RD16BE`. -/
def Obligations.DecoderAgreesWithOpcodeMap : Prop :=
  (∀ (w : Command) (o : Opcode),
    (∃ i, decode w = .ok i ∧ i.opcode = o) ↔ ∃ r ∈ opcodeMap, r.opcode = o ∧ w &&& r.mask = r.pattern) ∧
  (∀ (w : Command) (r r' : OpcodeRow), r ∈ opcodeMap → r' ∈ opcodeMap →
    w &&& r.mask = r.pattern → w &&& r'.mask = r'.pattern → r = r') ∧
  (∀ (p : Params) (w : Command),
    legal p w = true ↔ ∃ r ∈ opcodeMap, (r.opcode = .rd16be → p.implRd16be = true) ∧ w &&& r.mask = r.pattern)

/-- R55: a legal word has `RSV` = 0 and a 0 in every bit that its command needs to be 0. -/
def Obligations.ReservedBitsAreChecked : Prop :=
  ∀ (p : Params) (w : Command), legal p w = true →
    w.rsv = 0 ∧
    (w.op = 0x10 ∨ w.op = 0x11 → w.b.extractLsb' 16 16 = 0) ∧
    (w.op = 0x18 ∨ w.op = 0x19 ∨ w.op = 0x1A ∨ w.op = 0x1B ∨ w.op = 0x1C ∨ w.op = 0x41 → w.b = 0) ∧
    (w.op = 0x20 → w.a = 0 ∧ w.b = 0) ∧
    (w.op = 0x40 → w.b.extractLsb' 8 24 = 0)

/-- R54: an illegal word presented to a block that is not faulted raises IllegalCommand and has no other effect.
The `OP` values of which no word is legal are exactly those R54 lists, 0x19 among them without `IMPL_RD16BE`; they
number 243, or 242 with it; the all-zero and the all-ones words are illegal. -/
def Obligations.IllegalWordRaisesIllegalCommand : Prop :=
  (∀ (s : State) (w : Command), s.block.status.fault = false → legal s.params w = false →
    ∃ t, s.present w = .next t ∧ s.Faulted t .illegalCommand w) ∧
  (∀ p : Params, legal p 0 = false ∧ legal p (BitVec.allOnes 64) = false) ∧
  (∀ (p : Params) (b : Byte), unassignedOp p b.toNat = true ↔ ∀ w : Command, w.op = b → legal p w = false) ∧
  (∀ (p : Params) (w : Command), w.op = 0x19 → p.implRd16be = false → legal p w = false) ∧
  ∀ p : Params, ((List.range 256).filter (unassignedOp p)).length = if p.implRd16be = true then 242 else 243

/-- Every accepted and refused word that the spec lists beside R55; 0x1900000000000000 has two verdicts, one for each
choice of `IMPL_RD16BE`. -/
def Obligations.ListedWordsDecodeAsTabled : Prop :=
  decode 0x1000000000001234 = .ok (.wr16le 0 0x1234) ∧
  decode 0x1000000000011234 = .error (.mustBeZero .wr16le) ∧
  decode 0x1001000000001234 = .error (.reservedNotZero .wr16le) ∧
  decode 0x1200000012345678 = .ok (.wr32le 0 0x12345678) ∧
  decode 0x1800000500000000 = .ok (.rd16le 5) ∧
  decode 0x1800000500000001 = .error (.mustBeZero .rd16le) ∧
  legal { bufBytes := 256, implRd16be := false } 0x1900000000000000 = false ∧
  legal { bufBytes := 256, implRd16be := true } 0x1900000000000000 = true ∧
  decode 0x1900000000000000 = .ok (.rd16be 0) ∧
  decode 0x1D00000000000000 = .error (.unassignedOp 0x1D) ∧
  decode 0x2000000000000000 = .ok .crc8Init ∧
  decode 0x2000000100000000 = .error (.mustBeZero .crc8Init) ∧
  decode 0x2000000000000001 = .error (.mustBeZero .crc8Init) ∧
  decode 0x2100000000000000 = .ok (.crc8Upd 0 0) ∧
  decode 0x40000002000000FF = .ok (.putb 2 0xFF) ∧
  decode 0x4000000200000100 = .error (.mustBeZero .putb) ∧
  decode 0x0000000000000000 = .error (.unassignedOp 0x00)

/-! ## Assembler (30_encoding.md) -/

/-- The assembler emits only words that are legal for its block, of the row asked for, with the operands given and
none of them truncated; it accepts every command of the block with the operands of its form, and nothing else; and
every word it emits for a text is legal (R60). -/
def Obligations.AssemblerNeverEmitsIllegalWord : Prop :=
  ∀ p : Params,
    (∀ (o : Opcode) (ops : List Nat) (i : Instr), assemble p o ops = some i →
      legal p (encode i) = true ∧ i.opcode = o ∧
      (∀ a, ops[0]? = some a → i.fieldA.toNat = a) ∧ (∀ b, ops[1]? = some b → i.fieldB.toNat = b) ∧
      ops.length ≤ 2) ∧
    (∀ (o : Opcode) (ops : List Nat) (i : Instr),
      assemble p o ops = some i ↔ i.opcode = o ∧ ops = operandNumbers i ∧ i.wellFormed p = true) ∧
    (∀ (text : List Char) (ws : List Command), assembleText p text = some ws → ∀ w ∈ ws, legal p w = true)

/-- The text of a program, one command a line, assembles to its words in order: each line a command of the block in its
form, one blank before an operand, each operand in any decimal or hexadecimal spelling, with a comment or without (R60). -/
def Obligations.AssemblerReadsProgramText : Prop :=
  ∀ (p : Params) (lines : List (List Char × Instr)),
    (∀ l ∈ lines, CommandText l.1 l.2 ∧ l.2.wellFormed p = true) →
    assembleText p (lines.flatMap fun l => l.1 ++ ['\n']) = some (lines.map fun l => encode l.2)

/-- R61: `CRC8.GET` is the word of `CRC8.UPD 0, 0`; it returns `CRC8` and changes nothing but `RESULT` and `RTYPE`
(and the host's `pc` steps, as after every command). -/
def Obligations.Crc8GetReadsAccumulator : Prop :=
  encode crc8Get = 0x2100000000000000 ∧ crc8Get = .crc8Upd 0 0 ∧
  ∀ s : State, s.block.status.fault = false →
    ∃ t, exec crc8Get s = .next t ∧ s.Returned t (s.block.crc8.setWidth 32) .u8 ∧
      t.block.crc8 = s.block.crc8 ∧ t.block.buf = s.block.buf

/-- R62: `PUTS a, ..` expands to one `PUTB` per byte, at consecutive offsets and in order, and to nothing for no bytes. -/
def Obligations.PutsExpandsToPutbs : Prop :=
  ∀ (a : Nat) (bs : List Nat), (bs ≠ [] → a + bs.length ≤ 65536) → (∀ b ∈ bs, b < 256) →
    assemblePuts a bs = some (bs.mapIdx fun k b => .putb (BitVec.ofNat 16 (a + k)) (BitVec.ofNat 8 b))

/-! ## ByteCodec commands (40_bytecodec.md) -/

/-- R72. -/
def Obligations.Wr16leStoresLeastSignificantFirst : Prop :=
  ∀ (s : State) (a : Offset) (v : Half),
    encode (.wr16le a v) = Command.pack 0x10 0 a (v.setWidth 32) ∧
    (s.block.status.fault = false → a.toNat + 2 ≤ s.params.bufBytes →
      ∃ t, exec (.wr16le a v) s = .next t ∧ s.Returned t 0 .none ∧ t.block.crc8 = s.block.crc8 ∧
        t.readByte a.toNat = v.extractLsb' 0 8 ∧ t.readByte (a.toNat + 1) = v.extractLsb' 8 8 ∧
        s.SameBytesOutside t a.toNat 2) ∧
    (s.block.status.fault = false → s.params.bufBytes < a.toNat + 2 →
      ∃ t, exec (.wr16le a v) s = .next t ∧ s.Faulted t .indexError (encode (.wr16le a v)))

/-- R73. -/
def Obligations.Wr16beStoresMostSignificantFirst : Prop :=
  ∀ (s : State) (a : Offset) (v : Half),
    encode (.wr16be a v) = Command.pack 0x11 0 a (v.setWidth 32) ∧
    (s.block.status.fault = false → a.toNat + 2 ≤ s.params.bufBytes →
      ∃ t, exec (.wr16be a v) s = .next t ∧ s.Returned t 0 .none ∧ t.block.crc8 = s.block.crc8 ∧
        t.readByte a.toNat = v.extractLsb' 8 8 ∧ t.readByte (a.toNat + 1) = v.extractLsb' 0 8 ∧
        s.SameBytesOutside t a.toNat 2) ∧
    (s.block.status.fault = false → s.params.bufBytes < a.toNat + 2 →
      ∃ t, exec (.wr16be a v) s = .next t ∧ s.Faulted t .indexError (encode (.wr16be a v)))

/-- R74. -/
def Obligations.Wr32leStoresLeastSignificantFirst : Prop :=
  ∀ (s : State) (a : Offset) (v : Word),
    encode (.wr32le a v) = Command.pack 0x12 0 a v ∧
    (s.block.status.fault = false → a.toNat + 4 ≤ s.params.bufBytes →
      ∃ t, exec (.wr32le a v) s = .next t ∧ s.Returned t 0 .none ∧ t.block.crc8 = s.block.crc8 ∧
        t.readByte a.toNat = v.extractLsb' 0 8 ∧ t.readByte (a.toNat + 1) = v.extractLsb' 8 8 ∧
        t.readByte (a.toNat + 2) = v.extractLsb' 16 8 ∧ t.readByte (a.toNat + 3) = v.extractLsb' 24 8 ∧
        s.SameBytesOutside t a.toNat 4) ∧
    (s.block.status.fault = false → s.params.bufBytes < a.toNat + 4 →
      ∃ t, exec (.wr32le a v) s = .next t ∧ s.Faulted t .indexError (encode (.wr32le a v)))

/-- R75. -/
def Obligations.Wr32beStoresMostSignificantFirst : Prop :=
  ∀ (s : State) (a : Offset) (v : Word),
    encode (.wr32be a v) = Command.pack 0x13 0 a v ∧
    (s.block.status.fault = false → a.toNat + 4 ≤ s.params.bufBytes →
      ∃ t, exec (.wr32be a v) s = .next t ∧ s.Returned t 0 .none ∧ t.block.crc8 = s.block.crc8 ∧
        t.readByte a.toNat = v.extractLsb' 24 8 ∧ t.readByte (a.toNat + 1) = v.extractLsb' 16 8 ∧
        t.readByte (a.toNat + 2) = v.extractLsb' 8 8 ∧ t.readByte (a.toNat + 3) = v.extractLsb' 0 8 ∧
        s.SameBytesOutside t a.toNat 4) ∧
    (s.block.status.fault = false → s.params.bufBytes < a.toNat + 4 →
      ∃ t, exec (.wr32be a v) s = .next t ∧ s.Faulted t .indexError (encode (.wr32be a v)))

/-- R76. -/
def Obligations.Rd16leReturnsUnsignedHalf : Prop :=
  ∀ (s : State) (a : Offset),
    encode (.rd16le a) = Command.pack 0x18 0 a 0 ∧
    (s.block.status.fault = false → a.toNat + 2 ≤ s.params.bufBytes →
      ∃ t, exec (.rd16le a) s = .next t ∧
        s.Returned t ((s.readByte (a.toNat + 1) ++ s.readByte a.toNat).setWidth 32) .u16 ∧
        t.value = some ((s.readByte a.toNat).toNat + 256 * (s.readByte (a.toNat + 1)).toNat : Int) ∧
        t.block.crc8 = s.block.crc8 ∧ t.block.buf = s.block.buf) ∧
    (s.block.status.fault = false → s.params.bufBytes < a.toNat + 2 →
      ∃ t, exec (.rd16le a) s = .next t ∧ s.Faulted t .indexError (encode (.rd16le a)))

/-- R77: the raw bits as `RD16LE` leaves them, tagged S16, and the two's-complement value. -/
def Obligations.Rdi16leReturnsSignedHalf : Prop :=
  ∀ (s : State) (a : Offset),
    encode (.rdi16le a) = Command.pack 0x1C 0 a 0 ∧
    (s.block.status.fault = false → a.toNat + 2 ≤ s.params.bufBytes →
      ∃ t, exec (.rdi16le a) s = .next t ∧
        s.Returned t ((s.readByte (a.toNat + 1) ++ s.readByte a.toNat).setWidth 32) .s16 ∧
        t.value = some (if (s.readByte (a.toNat + 1)).getLsbD 7 = false
          then ((s.readByte a.toNat).toNat + 256 * (s.readByte (a.toNat + 1)).toNat : Int)
          else ((s.readByte a.toNat).toNat + 256 * (s.readByte (a.toNat + 1)).toNat : Int) - 65536) ∧
        t.block.crc8 = s.block.crc8 ∧ t.block.buf = s.block.buf) ∧
    (s.block.status.fault = false → s.params.bufBytes < a.toNat + 2 →
      ∃ t, exec (.rdi16le a) s = .next t ∧ s.Faulted t .indexError (encode (.rdi16le a)))

/-- R78: with `IMPL_RD16BE` the big-endian read; without it the word is illegal, in range or not. -/
def Obligations.Rd16beIsOptional : Prop :=
  ∀ (s : State) (a : Offset),
    encode (.rd16be a) = Command.pack 0x19 0 a 0 ∧
    (s.params.implRd16be = true → s.block.status.fault = false → a.toNat + 2 ≤ s.params.bufBytes →
      ∃ t, exec (.rd16be a) s = .next t ∧
        s.Returned t ((s.readByte a.toNat ++ s.readByte (a.toNat + 1)).setWidth 32) .u16 ∧
        t.value = some (256 * (s.readByte a.toNat).toNat + (s.readByte (a.toNat + 1)).toNat : Int) ∧
        t.block.crc8 = s.block.crc8 ∧ t.block.buf = s.block.buf) ∧
    (s.params.implRd16be = true → s.block.status.fault = false → s.params.bufBytes < a.toNat + 2 →
      ∃ t, exec (.rd16be a) s = .next t ∧ s.Faulted t .indexError (encode (.rd16be a))) ∧
    (s.params.implRd16be = false → s.block.status.fault = false →
      ∃ t, exec (.rd16be a) s = .next t ∧ s.Faulted t .illegalCommand (encode (.rd16be a)))

/-- R79. -/
def Obligations.Rd32leReturnsWord : Prop :=
  ∀ (s : State) (a : Offset),
    encode (.rd32le a) = Command.pack 0x1A 0 a 0 ∧
    (s.block.status.fault = false → a.toNat + 4 ≤ s.params.bufBytes →
      ∃ t, exec (.rd32le a) s = .next t ∧
        s.Returned t (s.readByte (a.toNat + 3) ++ s.readByte (a.toNat + 2) ++ s.readByte (a.toNat + 1) ++
          s.readByte a.toNat) .u32 ∧
        t.value = some ((s.readByte a.toNat).toNat + 2 ^ 8 * (s.readByte (a.toNat + 1)).toNat +
          2 ^ 16 * (s.readByte (a.toNat + 2)).toNat + 2 ^ 24 * (s.readByte (a.toNat + 3)).toNat : Int) ∧
        t.block.crc8 = s.block.crc8 ∧ t.block.buf = s.block.buf) ∧
    (s.block.status.fault = false → s.params.bufBytes < a.toNat + 4 →
      ∃ t, exec (.rd32le a) s = .next t ∧ s.Faulted t .indexError (encode (.rd32le a)))

/-- R80. -/
def Obligations.Rd32beReturnsWord : Prop :=
  ∀ (s : State) (a : Offset),
    encode (.rd32be a) = Command.pack 0x1B 0 a 0 ∧
    (s.block.status.fault = false → a.toNat + 4 ≤ s.params.bufBytes →
      ∃ t, exec (.rd32be a) s = .next t ∧
        s.Returned t (s.readByte a.toNat ++ s.readByte (a.toNat + 1) ++ s.readByte (a.toNat + 2) ++
          s.readByte (a.toNat + 3)) .u32 ∧
        t.value = some (2 ^ 24 * (s.readByte a.toNat).toNat + 2 ^ 16 * (s.readByte (a.toNat + 1)).toNat +
          2 ^ 8 * (s.readByte (a.toNat + 2)).toNat + (s.readByte (a.toNat + 3)).toNat : Int) ∧
        t.block.crc8 = s.block.crc8 ∧ t.block.buf = s.block.buf) ∧
    (s.block.status.fault = false → s.params.bufBytes < a.toNat + 4 →
      ∃ t, exec (.rd32be a) s = .next t ∧ s.Faulted t .indexError (encode (.rd32be a)))

/-- R81: a write, then the matching read from any later state in which no byte of the range has changed, gives the
value back; the signed read gives its two's-complement value. -/
def Obligations.CodecRoundTrip : Prop :=
  ∀ (s u : State) (a : Offset),
    s.block.status.fault = false → u.block.status.fault = false → u.params = s.params →
    (∀ v : Half, a.toNat + 2 ≤ s.params.bufBytes →
      (∃ t, exec (.wr16le a v) s = .next t ∧
        (u.readByte a.toNat = t.readByte a.toNat → u.readByte (a.toNat + 1) = t.readByte (a.toNat + 1) →
          (∃ r, exec (.rd16le a) u = .next r ∧ r.value = some (v.toNat : Int)) ∧
          (∃ r, exec (.rdi16le a) u = .next r ∧ r.value = some v.toInt))) ∧
      (∃ t, exec (.wr16be a v) s = .next t ∧
        (s.params.implRd16be = true → u.readByte a.toNat = t.readByte a.toNat →
          u.readByte (a.toNat + 1) = t.readByte (a.toNat + 1) →
          ∃ r, exec (.rd16be a) u = .next r ∧ r.value = some (v.toNat : Int)))) ∧
    (∀ v : Word, a.toNat + 4 ≤ s.params.bufBytes →
      (∃ t, exec (.wr32le a v) s = .next t ∧
        ((∀ k, k < 4 → u.readByte (a.toNat + k) = t.readByte (a.toNat + k)) →
          ∃ r, exec (.rd32le a) u = .next r ∧ r.value = some (v.toNat : Int))) ∧
      (∃ t, exec (.wr32be a v) s = .next t ∧
        ((∀ k, k < 4 → u.readByte (a.toNat + k) = t.readByte (a.toNat + k)) →
          ∃ r, exec (.rd32be a) u = .next r ∧ r.value = some (v.toNat : Int))))

/-- R82: reading in the other byte order gives the bytes swapped, in 16 and in 32 bits, and swapping is its own
inverse. Only the half that reads with `RD16BE` needs `IMPL_RD16BE`. -/
def Obligations.CrossOrderReadSwapsBytes : Prop :=
  ∀ (s : State) (a : Offset), s.block.status.fault = false →
    (∀ v : Half, a.toNat + 2 ≤ s.params.bufBytes →
      ∃ sw : Half, sw = v.extractLsb' 0 8 ++ v.extractLsb' 8 8 ∧
        v = sw.extractLsb' 0 8 ++ sw.extractLsb' 8 8 ∧
        (s.params.implRd16be = true →
          ∃ t r, exec (.wr16le a v) s = .next t ∧ exec (.rd16be a) t = .next r ∧
            r.block.result = sw.setWidth 32) ∧
        (∃ t r, exec (.wr16be a v) s = .next t ∧ exec (.rd16le a) t = .next r ∧
          r.block.result = sw.setWidth 32)) ∧
    (∀ v : Word, a.toNat + 4 ≤ s.params.bufBytes →
      ∃ sw : Word, sw = v.extractLsb' 0 8 ++ v.extractLsb' 8 8 ++ v.extractLsb' 16 8 ++ v.extractLsb' 24 8 ∧
        v = sw.extractLsb' 0 8 ++ sw.extractLsb' 8 8 ++ sw.extractLsb' 16 8 ++ sw.extractLsb' 24 8 ∧
        (∃ t r, exec (.wr32le a v) s = .next t ∧ exec (.rd32be a) t = .next r ∧ r.block.result = sw) ∧
        (∃ t r, exec (.wr32be a v) s = .next t ∧ exec (.rd32le a) t = .next r ∧ r.block.result = sw))

/-! ## CRC-8 (41_crc8.md) -/

/-- R90: the register after one byte, iteration by iteration, and the spec's worked step. -/
def Obligations.Crc8ByteShiftsEightTimes : Prop :=
  (∀ c b : Byte, ∃ t : Nat → Byte, t 0 = c ^^^ b ∧
    (∀ k, k < 8 → t (k + 1) = if (t k).getLsbD 7 = true then (t k <<< 1) ^^^ 0x07 else t k <<< 1) ∧
    crc8Byte c b = t 8) ∧
  crc8Byte 0x00 0x01 = 0x07

/-- The byte-wise CRC-8 is the bit-serial one that takes each byte bit 7 first (R90, R91; 20_memory.md section 2). -/
def Obligations.Crc8EqualsBitSerialDivision : Prop :=
  ∀ (bs : List Byte) (c : Byte),
    crc8Bytes c bs =
      (bs.flatMap fun b => (List.range 8).map fun k => b.getLsbD (7 - k)).foldl
        (fun (t : Byte) x => if (t.getLsbD 7 ^^ x) = true then (t <<< 1) ^^^ 0x07 else t <<< 1) c

/-- R92. -/
def Obligations.Crc8InitClearsAccumulator : Prop :=
  encode .crc8Init = 0x2000000000000000 ∧
  ∀ s : State, s.block.status.fault = false →
    ∃ t, exec .crc8Init s = .next t ∧ s.Returned t 0 .none ∧ t.block.crc8 = 0 ∧ t.block.buf = s.block.buf

/-- R93: the range's bytes in ascending order are absorbed into `CRC8`, and the new register is returned. -/
def Obligations.Crc8UpdAbsorbsRange : Prop :=
  ∀ (s : State) (a : Offset) (n : Word),
    encode (.crc8Upd a n) = Command.pack 0x21 0 a n ∧
    (s.block.status.fault = false → a.toNat + n.toNat ≤ s.params.bufBytes →
      ∃ t, exec (.crc8Upd a n) s = .next t ∧
        t.block.crc8 = crc8Bytes s.block.crc8 ((List.range n.toNat).map fun k => s.readByte (a.toNat + k)) ∧
        s.Returned t (t.block.crc8.setWidth 32) .u8 ∧ t.block.buf = s.block.buf) ∧
    (s.block.status.fault = false → s.params.bufBytes < a.toNat + n.toNat →
      ∃ t, exec (.crc8Upd a n) s = .next t ∧ s.Faulted t .indexError (encode (.crc8Upd a n)))

/-- R94: a range absorbed in two parts leaves the `CRC8` and the `RESULT` of the range absorbed whole, whatever
happened between the parts, as long as neither `CRC8` nor the second part's bytes changed; in general what counts
is the sequence of bytes consumed. -/
def Obligations.Crc8Streaming : Prop :=
  (∀ (c : Byte) (xs ys : List Byte), crc8Bytes c (xs ++ ys) = crc8Bytes (crc8Bytes c xs) ys) ∧
  ∀ (s : State) (a a₂ : Offset) (n n₁ n₂ : Word),
    s.block.status.fault = false → a₂.toNat = a.toNat + n₁.toNat → n.toNat = n₁.toNat + n₂.toNat →
    a.toNat + n.toNat ≤ s.params.bufBytes →
    ∃ t₁ t, exec (.crc8Upd a n₁) s = .next t₁ ∧ exec (.crc8Upd a n) s = .next t ∧
      ∀ u : State, u.block.status.fault = false → u.params = s.params → u.block.crc8 = t₁.block.crc8 →
        (∀ k, k < n₂.toNat → u.readByte (a₂.toNat + k) = s.readByte (a₂.toNat + k)) →
        ∃ t₂, exec (.crc8Upd a₂ n₂) u = .next t₂ ∧ t₂.block.crc8 = t.block.crc8 ∧ t₂.block.result = t.block.result

/-- R95: an empty update returns `CRC8` unchanged when its offset is at most `BUF_BYTES`, 0x00 straight after
`CRC8.INIT`, and faults beyond. -/
def Obligations.Crc8EmptyUpdate : Prop :=
  ∀ (s : State) (a : Offset), s.block.status.fault = false →
    (a.toNat ≤ s.params.bufBytes →
      ∃ t, exec (.crc8Upd a 0) s = .next t ∧ s.Returned t (s.block.crc8.setWidth 32) .u8 ∧
        t.block.crc8 = s.block.crc8 ∧ t.block.buf = s.block.buf) ∧
    (a.toNat ≤ s.params.bufBytes →
      ∃ u t, exec .crc8Init s = .next u ∧ exec (.crc8Upd a 0) u = .next t ∧ t.block.result = 0) ∧
    (a.toNat ≤ s.params.bufBytes →
      ∃ t, exec (.crc8Upd a 0) s.takeReset = .next t ∧ t.block.result = 0) ∧
    (s.params.bufBytes < a.toNat →
      ∃ t, exec (.crc8Upd a 0) s = .next t ∧ s.Faulted t .indexError (encode (.crc8Upd a 0)))

/-- R96: only `CRC8.INIT`, `CRC8.UPD` and reset change `CRC8`; a step that leaves the block faulted does not. -/
def Obligations.OnlyCrc8CommandsChangeCrc8 : Prop :=
  ∀ s t : State, step s = .next t → t.block.crc8 ≠ s.block.crc8 →
    s.driver.rst = true ∨
    (t.block.status.fault = false ∧ ∃ w i, s.driver.prog[s.driver.pc]? = some w ∧ decode w = .ok i ∧
      (i = .crc8Init ∨ ∃ a n, i = .crc8Upd a n))

/-- R97: a message followed by its own CRC-8 ends with the register at zero. -/
def Obligations.Crc8Residue : Prop := ∀ m : List Byte, crc8Bytes 0 (m ++ [crc8Bytes 0 m]) = 0

/-! ## CRC-16 (42_crc16.md) -/

/-- R100: the register after one byte, iteration by iteration, and the spec's worked step. -/
def Obligations.Crc16ByteShiftsEightTimes : Prop :=
  (∀ (r : Half) (b : Byte), ∃ t : Nat → Half, t 0 = r ^^^ b.setWidth 16 ∧
    (∀ k, k < 8 → t (k + 1) = if (t k).getLsbD 0 = true then (t k >>> 1) ^^^ 0xA001 else t k >>> 1) ∧
    crc16Byte r b = t 8) ∧
  crc16Byte 0xFFFF 0x01 = 0x807E

/-- The byte-wise CRC-16 is the bit-serial one that takes each byte bit 0 first, seeded with 0xFFFF
(R100, R101; 20_memory.md section 2). -/
def Obligations.Crc16EqualsBitSerialDivision : Prop :=
  ∀ bs : List Byte,
    crc16Bytes bs =
      (bs.flatMap fun b => (List.range 8).map fun k => b.getLsbD k).foldl
        (fun (t : Half) x => if (t.getLsbD 0 ^^ x) = true then (t >>> 1) ^^^ 0xA001 else t >>> 1) 0xFFFF

/-- R102: the CRC-16 of the range's bytes in ascending order is returned, and nothing else is touched. -/
def Obligations.Crc16ModbusReturnsChecksum : Prop :=
  ∀ (s : State) (a : Offset) (n : Word),
    encode (.crc16Modbus a n) = Command.pack 0x30 0 a n ∧
    (s.block.status.fault = false → a.toNat + n.toNat ≤ s.params.bufBytes →
      ∃ t, exec (.crc16Modbus a n) s = .next t ∧
        s.Returned t ((crc16Bytes ((List.range n.toNat).map fun k => s.readByte (a.toNat + k))).setWidth 32) .u16 ∧
        t.block.crc8 = s.block.crc8 ∧ t.block.buf = s.block.buf) ∧
    (s.block.status.fault = false → s.params.bufBytes < a.toNat + n.toNat →
      ∃ t, exec (.crc16Modbus a n) s = .next t ∧ s.Faulted t .indexError (encode (.crc16Modbus a n)))

/-- R103: equal byte sequences give equal values in any two states and at any two offsets, and the command leaves no
trace but in `RESULT` and `RTYPE` (and the host's `pc`). -/
def Obligations.Crc16IsStateless : Prop :=
  ∀ (s u : State) (a b : Offset) (n : Word),
    s.block.status.fault = false → u.block.status.fault = false →
    a.toNat + n.toNat ≤ s.params.bufBytes → b.toNat + n.toNat ≤ u.params.bufBytes →
    (∀ k, k < n.toNat → u.readByte (b.toNat + k) = s.readByte (a.toNat + k)) →
    ∃ t r, exec (.crc16Modbus a n) s = .next t ∧ exec (.crc16Modbus b n) u = .next r ∧
      r.block.result = t.block.result ∧ s.Returned t t.block.result .u16 ∧
      t.block.crc8 = s.block.crc8 ∧ t.block.buf = s.block.buf

/-- R104: an empty range returns the seed 0xFFFF when its offset is at most `BUF_BYTES`, and faults beyond. -/
def Obligations.Crc16EmptyRange : Prop :=
  ∀ (s : State) (a : Offset), s.block.status.fault = false →
    (a.toNat ≤ s.params.bufBytes →
      ∃ t, exec (.crc16Modbus a 0) s = .next t ∧ s.Returned t 0x0000FFFF .u16 ∧
        t.block.crc8 = s.block.crc8 ∧ t.block.buf = s.block.buf) ∧
    (s.params.bufBytes < a.toNat →
      ∃ t, exec (.crc16Modbus a 0) s = .next t ∧ s.Faulted t .indexError (encode (.crc16Modbus a 0)))

/-- R105: a message followed by its own CRC-16, low byte first, checksums to zero. -/
def Obligations.Crc16Residue : Prop :=
  ∀ m : List Byte, crc16Bytes (m ++ [(crc16Bytes m).extractLsb' 0 8, (crc16Bytes m).extractLsb' 8 8]) = 0

/-! ## Host access (43_host_access.md) -/

/-- R110. -/
def Obligations.PutbStoresByte : Prop :=
  ∀ (s : State) (a : Offset) (b : Byte),
    encode (.putb a b) = Command.pack 0x40 0 a (b.setWidth 32) ∧
    (s.block.status.fault = false → a.toNat < s.params.bufBytes →
      ∃ t, exec (.putb a b) s = .next t ∧ s.Returned t 0 .none ∧ t.block.crc8 = s.block.crc8 ∧
        t.readByte a.toNat = b ∧ s.SameBytesOutside t a.toNat 1) ∧
    (s.block.status.fault = false → s.params.bufBytes ≤ a.toNat →
      ∃ t, exec (.putb a b) s = .next t ∧ s.Faulted t .indexError (encode (.putb a b)))

/-- R111. -/
def Obligations.GetbReturnsByte : Prop :=
  ∀ (s : State) (a : Offset),
    encode (.getb a) = Command.pack 0x41 0 a 0 ∧
    (s.block.status.fault = false → a.toNat < s.params.bufBytes →
      ∃ t, exec (.getb a) s = .next t ∧ s.Returned t ((s.readByte a.toNat).setWidth 32) .u8 ∧
        t.value = some ((s.readByte a.toNat).toNat : Int) ∧
        t.block.crc8 = s.block.crc8 ∧ t.block.buf = s.block.buf) ∧
    (s.block.status.fault = false → s.params.bufBytes ≤ a.toNat →
      ∃ t, exec (.getb a) s = .next t ∧ s.Faulted t .indexError (encode (.getb a)))

/-- R112: `PUTB` and `GETB` see the same bytes as each other, in any later state in which the byte has not changed, and
as the ByteCodec commands. -/
def Obligations.ByteAccessAgreesWithCodec : Prop :=
  ∀ (s : State) (a : Offset), s.block.status.fault = false →
    (∀ (b : Byte) (u : State), a.toNat < s.params.bufBytes → u.block.status.fault = false → u.params = s.params →
      ∃ t, exec (.putb a b) s = .next t ∧ (u.readByte a.toNat = t.readByte a.toNat →
        ∃ r, exec (.getb a) u = .next r ∧ r.block.result = b.setWidth 32)) ∧
    (∀ a₁ : Offset, a₁.toNat = a.toNat + 1 → a.toNat + 2 ≤ s.params.bufBytes →
      (∀ v : Half, ∃ t r r₁, exec (.wr16le a v) s = .next t ∧
        exec (.getb a) t = .next r ∧ r.block.result = (v.extractLsb' 0 8).setWidth 32 ∧
        exec (.getb a₁) r = .next r₁ ∧ r₁.block.result = (v.extractLsb' 8 8).setWidth 32) ∧
      (∀ x y : Byte, ∃ t t₁ r, exec (.putb a x) s = .next t ∧ exec (.putb a₁ y) t = .next t₁ ∧
        exec (.rd16le a) t₁ = .next r ∧ r.block.result = (y ++ x).setWidth 32 ∧
        (s.params.implRd16be = true →
          ∃ q, exec (.rd16be a) t₁ = .next q ∧ q.block.result = (x ++ y).setWidth 32)))

/-- A byte never written since reset reads as the unspecified byte of its index: the free value of log 3, whatever it
is, and reading it twice gives the same (10_state.md section 7; 93_implementation_defined.md U1). -/
def Obligations.UnwrittenByteReadsAsFreeValue : Prop :=
  ∀ (s : State) (a : Offset), s.block.status.fault = false → a.toNat < s.params.bufBytes →
    (∀ c ∈ s.block.buf, c.1 ≠ a.toNat) →
    ∃ t u, exec (.getb a) s = .next t ∧ exec (.getb a) t = .next u ∧
      t.block.result = (Config.resetByte s.resets a.toNat).setWidth 32 ∧ u.block.result = t.block.result

/-! ## Output registers (10_state.md) -/

/-- R14's layout: bit 0 FAULT, bits 3:1 CAUSE, bits 6:4 RTYPE, bit 7 always 0; the codes as tabled, and so the reserved
codes never produced. -/
def Obligations.StatusWordLayout : Prop :=
  (∀ st : Status,
    st.word.getLsbD 0 = st.fault ∧ st.word.extractLsb' 1 3 = st.cause.code ∧
    st.word.extractLsb' 4 3 = st.rtype.code ∧ st.word.getLsbD 7 = false ∧
    st.cause.code.toNat ≤ 2 ∧ st.rtype.code.toNat ≤ 4) ∧
  Cause.none.code = 0 ∧ Cause.indexError.code = 1 ∧ Cause.illegalCommand.code = 2 ∧
  RType.none.code = 0 ∧ RType.u8.code = 1 ∧ RType.u16.code = 2 ∧ RType.s16.code = 3 ∧ RType.u32.code = 4

/-- R13: a command that completes leaves in `RESULT` a value that fits the width its type tags, 0 for no value; a
faulting command, and a command presented while faulted, leave `RESULT` as it was. -/
def Obligations.ResultHoldsReturnedValue : Prop :=
  ∀ (s t : State) (w : Command), s.present w = .next t →
    (s.block.status.fault = false → t.block.status.fault = false →
      t.block.result.toNat < 2 ^ t.block.status.rtype.width ∧
      (t.block.status.rtype = .none → t.block.result = 0)) ∧
    (t.block.status.fault = true → t.block.result = s.block.result ∧ t.block.status.rtype = s.block.status.rtype)

/-- R15: the faulting command writes its own word into `FCMD`; every other command leaves it, and it is 0 after reset. -/
def Obligations.FcmdRecordsFaultingWord : Prop :=
  (∀ (s t : State) (w : Command), s.present w = .next t →
    (s.block.status.fault = false → t.block.status.fault = true → t.block.fcmd = w) ∧
    (s.block.status.fault = true ∨ t.block.status.fault = false → t.block.fcmd = s.block.fcmd)) ∧
  ∀ s t : State, step s = .next t → s.driver.rst = true → t.block.fcmd = 0

/-! ## Range check, faults and their order (20_memory.md, 60_exceptions.md) -/

/-- R121: every command of the block but `CRC8.INIT` raises IndexError exactly when `A + n > BUF_BYTES`; `CRC8.INIT`
never does. -/
def Obligations.IndexErrorExactlyWhenRangeDoesNotFit : Prop :=
  ∀ (s : State) (i : Instr), s.block.status.fault = false → i.wellFormed s.params = true →
    ∃ t, exec i s = .next t ∧
      (i ≠ .crc8Init → (t.block.status.fault = true ↔ s.params.bufBytes < i.fieldA.toNat + byteCount i)) ∧
      (i = .crc8Init → t.block.status.fault = false) ∧
      (t.block.status.fault = true → t.block.status.cause = .indexError)

/-- For any word presented, the first check that applies decides (60_exceptions.md sections 3 and 4). That the ignored command answers a next state,
equal to the one before, is the model's form of 'ignored' (log 5). -/
def Obligations.FirstCheckDecides : Prop :=
  ∀ (s : State) (w : Command),
    if s.block.status.fault = true then s.present w = .next s
    else if legal s.params w = false then ∃ t, s.present w = .next t ∧ s.Faulted t .illegalCommand w
    else ∃ i, decode w = .ok i ∧
      if i ≠ .crc8Init ∧ s.params.bufBytes < i.fieldA.toNat + byteCount i then
        ∃ t, s.present w = .next t ∧ s.Faulted t .indexError w
      else
        ∃ t v ty, s.present w = .next t ∧ s.Returned t v ty ∧ s.SameBytesOutside t i.fieldA.toNat (byteCount i)

/-- R126: a command that faults has had no effect but fault entry, with its own word in `FCMD`. -/
def Obligations.FaultsArePrecise : Prop :=
  ∀ (s t : State) (w : Command), s.present w = .next t → s.block.status.fault = false →
    t.block.status.fault = true →
    (s.Faulted t .indexError w ∨ s.Faulted t .illegalCommand w) ∧ s.SameBytes t

/-- While faulted every command presented is ignored, step after step, and the state counts as a fault outcome, never as
a final state. That an ignored command is a next state equal to the one before, and that the verdict carries the fault
outcome, are the model's reading of R127 (log 5). -/
def Obligations.FaultedBlockIgnoresCommands : Prop :=
  ∀ s : State, s.block.status.fault = true →
    (∀ w, s.present w = .next s) ∧
    (∀ w, s.driver.rst = false → 0 < s.resets → s.driver.prog[s.driver.pc]? = some w → step s = .next s) ∧
    s.verdict = .endedInFault s.block.status.cause ∧ s.verdict ≠ .endedWell

/-! ## Frames (40_bytecodec.md R70, 41_crc8.md R96, 20_memory.md R35, R37) -/

/-- Frame of the storing commands, on every path: every byte outside the ones the command stores to, computed from its
own offset, reads as before, and so do `CRC8`, the parameters, the host's list and, unless the command faults,
`CAUSE` and `FCMD`. -/
def Obligations.StoringCommandsFrame : Prop :=
  ∀ (s t : State) (a : Offset),
    (∀ v, exec (.wr16le a v) s = .next t ∨ exec (.wr16be a v) s = .next t →
      s.SameBytesOutside t a.toNat 2 ∧ t.block.crc8 = s.block.crc8 ∧ s.KeepsRest t) ∧
    (∀ v, exec (.wr32le a v) s = .next t ∨ exec (.wr32be a v) s = .next t →
      s.SameBytesOutside t a.toNat 4 ∧ t.block.crc8 = s.block.crc8 ∧ s.KeepsRest t) ∧
    (∀ b, exec (.putb a b) s = .next t →
      s.SameBytesOutside t a.toNat 1 ∧ t.block.crc8 = s.block.crc8 ∧ s.KeepsRest t)

/-- Frame of the commands that store nothing, on every path: every byte reads as before, `CRC8` changes only under
the two CRC-8 commands, every reading command repeated gives the same `RESULT`, and the rest is kept as above. -/
def Obligations.NonStoringCommandsFrame : Prop :=
  ∀ (s t : State) (i : Instr), exec i s = .next t →
    ((∃ a, i = .rd16le a ∨ i = .rd16be a ∨ i = .rd32le a ∨ i = .rd32be a ∨ i = .rdi16le a ∨ i = .getb a) ∨
      (∃ a n, i = .crc16Modbus a n) →
      s.SameBytes t ∧ t.block.crc8 = s.block.crc8 ∧ s.KeepsRest t ∧
      ∃ u, exec i t = .next u ∧ u.block.result = t.block.result) ∧
    (i = .crc8Init ∨ (∃ a n, i = .crc8Upd a n) → s.SameBytes t ∧ s.KeepsRest t)

/-- R4's second half, by two runs: what a command returns, what it leaves in `CRC8` and in the bytes of its range, and
whether it faults depend only on the parameters, the command, `CRC8` and those bytes: not on the old `RESULT`,
`RTYPE`, `CAUSE` or `FCMD`, on any other byte, or on anything of the host. -/
def Obligations.EffectDependsOnlyOnOperandsBufAndCrc8 : Prop :=
  ∀ (s u : State) (i : Instr), s.block.status.fault = false → u.block.status.fault = false →
    u.params = s.params → u.block.crc8 = s.block.crc8 →
    (∀ k, k < byteCount i → u.readByte (i.fieldA.toNat + k) = s.readByte (i.fieldA.toNat + k)) →
    ∃ t r, exec i s = .next t ∧ exec i u = .next r ∧
      r.block.status.fault = t.block.status.fault ∧ r.block.crc8 = t.block.crc8 ∧
      (∀ k, k < byteCount i → r.readByte (i.fieldA.toNat + k) = t.readByte (i.fieldA.toNat + k)) ∧
      (t.block.status.fault = false →
        r.block.result = t.block.result ∧ r.block.status.rtype = t.block.status.rtype ∧ r.value = t.value)

/-! ## Steps, runs and reset (10_state.md R17, 70_reset_and_hazards.md) -/

/-- With no reset waiting and a word at `pc`, a step of a block that was reset is the command's own meaning; nothing
is added around it. -/
def Obligations.StepRunsDecodedCommand : Prop :=
  ∀ (s : State) (w : Command) (i : Instr), s.driver.rst = false → 0 < s.resets →
    s.driver.prog[s.driver.pc]? = some w → decode w = .ok i → step s = exec i s

/-- A step stops in two cases only, neither of them a command's: the list is at its end (log 6), or the block was
never reset (log 7). -/
def Obligations.StepStopsOnlyOutsideTransactions : Prop :=
  ∀ s : State,
    (∀ f, step s = .fault f ↔ f = .noCommand ∧ s.driver.rst = false ∧ s.driver.prog.length ≤ s.driver.pc) ∧
    (∀ r, step s = .refused r ↔
      r = .neverReset ∧ s.driver.rst = false ∧ s.driver.pc < s.driver.prog.length ∧ s.resets = 0) ∧
    (s.driver.rst = true ∨ (s.driver.pc < s.driver.prog.length ∧ 0 < s.resets) → ∃ t, step s = .next t)

/-- R128: no command transfers control: a step with no reset moves `pc` by one if the command completes and leaves it
where it is if the block is then faulted. -/
def Obligations.PcStepsByOneOrStays : Prop :=
  ∀ s t : State, step s = .next t → s.driver.rst = false →
    (t.block.status.fault = false → t.driver.pc = s.driver.pc + 1) ∧
    (t.block.status.fault = true → t.driver.pc = s.driver.pc) ∧ t.driver.prog = s.driver.prog

/-- What the reset event writes (R20, R22, R23, R24), and that it alone clears `FAULT` (R23, R129). -/
def Obligations.ResetWritesRegistersAndAloneClearsFault : Prop :=
  (∀ s : State, s.driver.rst = true →
    ∃ t, step s = .next t ∧ t.block.crc8 = 0x00 ∧ t.block.result = 0x00000000 ∧ t.block.status.word = 0x00 ∧
      t.block.status.fault = false ∧ t.block.status.cause = .none ∧ t.block.status.rtype = .none ∧
      t.block.fcmd = 0) ∧
  (∀ s t : State, step s = .next t → s.block.status.fault = true → t.block.status.fault = false →
    s.driver.rst = true)

/-- The rest of the reset event as the model has it: `pc` is 0, the event is consumed, the list and the parameters
stay, and every byte of `BUF` is the free value of a count of resets not used before (logs 3, 4). -/
def Obligations.ResetForgetsBuf : Prop :=
  ∀ s : State, s.driver.rst = true →
    ∃ t, step s = .next t ∧ t.driver.pc = 0 ∧ t.driver.rst = false ∧ t.driver.prog = s.driver.prog ∧
      t.params = s.params ∧ t.resets = s.resets + 1 ∧ t.block.buf = [] ∧
      ∀ i, t.readByte i = Config.resetByte t.resets i

/-- `State.reset` is the state after reset with the spec's default parameters (R2, R3, R20, R22 to R24), with no byte
of `BUF` known. The parameters' place in the state and the count of resets are the model's (logs 1, 4). -/
def Obligations.ResetStateIsAsTabled : Prop :=
  State.reset.block.crc8 = 0 ∧ State.reset.block.result = 0 ∧ State.reset.block.status.word = 0 ∧
  State.reset.block.fcmd = 0 ∧ State.reset.driver.pc = 0 ∧ State.reset.block.buf = [] ∧
  State.reset.params.bufBytes = 256 ∧ State.reset.params.implRd16be = false ∧ State.reset.verdict = .endedWell ∧
  State.reset.Launch

/-- The invariant of Safety.lean is kept by every step, a reset among them. -/
def Obligations.StepKeepsInvariant : Prop := ∀ s t : State, s.Inv → step s = .next t → t.Inv

/-- The invariant holds at reset. -/
def Obligations.ResetSatisfiesInvariant : Prop := State.reset.Inv

/-- The canonical form makes equal memories equal data: two memories in it that list the same bytes are one list. -/
def Obligations.CanonicalMemoryIsUnique : Prop :=
  ∀ m m' : Memory, Memory.wf m = true → Memory.wf m' = true →
    (∀ i, Memory.lookup m i = Memory.lookup m' i) → m = m'

/-- R150: every run of a finite list ends, in at most as many steps as words are left, either well, with `FCMD` 0 and
every word presented, or in a fault, with `pc` at the faulting word and that word in `FCMD`. -/
def Obligations.EveryRunEndsWellOrInFault : Prop :=
  ∀ s : State, s.Inv → s.driver.rst = false → s.block.status.fault = false →
    ∃ k t, k ≤ s.driver.prog.length - s.driver.pc ∧ Host.Core.run Sys2Proof.core k s = .next t ∧
      t.driver.prog = s.driver.prog ∧
      ((t.verdict = .endedWell ∧ t.driver.pc = s.driver.prog.length ∧ t.block.fcmd = 0) ∨
       (∃ c, t.verdict = .endedInFault c ∧ c ≠ .none ∧ t.driver.pc < s.driver.prog.length ∧
         s.driver.prog[t.driver.pc]? = some t.block.fcmd))
end

