-- ==== Sys2Proof/Laws/Assembler.lean ====
section
/-! SUPPORT. What the parts of the assembler accept (30_encoding.md R60). -/

namespace Sys2Proof.Machine

/-! ## Operands and forms -/

@[simp] theorem operandOfNat_toNat {w : Nat} (x : BitVec w) : operandOfNat w x.toNat = some x := by
  simp [operandOfNat, x.isLt]

theorem toNat_of_operandOfNat {w n : Nat} {x : BitVec w} (h : operandOfNat w n = some x) : x.toNat = n := by
  unfold operandOfNat at h
  split at h
  · cases h
    simp [Nat.mod_eq_of_lt ‹_›]
  · cases h

theorem assembleTwo_cases {w : Nat} {f : Offset → BitVec w → Instr} {ops : List Nat} {i : Instr}
    (h : assembleTwo f ops = some i) : ∃ a b, ops = [a.toNat, b.toNat] ∧ i = f a b := by
  unfold assembleTwo at h
  split at h
  · simp only [Option.bind_eq_some_iff, Option.map_eq_some_iff] at h
    obtain ⟨a, ha, b, hb, rfl⟩ := h
    exact ⟨a, b, by rw [toNat_of_operandOfNat ha, toNat_of_operandOfNat hb], rfl⟩
  · cases h

theorem assembleOne_cases {f : Offset → Instr} {ops : List Nat} {i : Instr}
    (h : assembleOne f ops = some i) : ∃ a, ops = [a.toNat] ∧ i = f a := by
  unfold assembleOne at h
  split at h
  · simp only [Option.map_eq_some_iff] at h
    obtain ⟨a, ha, rfl⟩ := h
    exact ⟨a, by rw [toNat_of_operandOfNat ha], rfl⟩
  · cases h

theorem assembleForm_eq_some {o : Opcode} {ops : List Nat} {i : Instr} :
    assembleForm o ops = some i ↔ i.opcode = o ∧ ops = operandNumbers i := by
  constructor
  · intro h
    cases o <;> simp only [assembleForm] at h
    case crc8Init =>
      split at h
      · cases h
        exact ⟨rfl, ‹_›⟩
      · cases h
    all_goals first
      | (obtain ⟨a, b, rfl, rfl⟩ := assembleTwo_cases h; exact ⟨rfl, rfl⟩)
      | (obtain ⟨a, rfl, rfl⟩ := assembleOne_cases h; exact ⟨rfl, rfl⟩)
  · rintro ⟨rfl, rfl⟩
    cases i <;> simp [assembleForm, Instr.opcode, operandNumbers, assembleTwo, assembleOne]

theorem assemblePuts_wellFormed (p : Params) {bs : List Nat} :
    ∀ {a : Nat} {is : List Instr}, assemblePuts a bs = some is → ∀ i ∈ is, i.wellFormed p = true := by
  induction bs with
  | nil =>
    intro a is h
    cases h
    simp
  | cons b bs ih =>
    intro a is h
    simp only [assemblePuts, Option.bind_eq_some_iff, Option.map_eq_some_iff] at h
    obtain ⟨i, hi, js, hj, rfl⟩ := h
    have ho := (assembleForm_eq_some.1 hi).1
    intro x hx
    rcases List.mem_cons.1 hx with rfl | hx
    · cases x <;> simp_all [Instr.opcode, Instr.wellFormed]
    · exact ih hj x hx

/-! ## Splitting text -/

theorem splitAt_ne_nil (sep : Char) (t : List Char) : splitAt sep t ≠ [] := by
  cases t with
  | nil => simp [splitAt]
  | cons c t =>
    rw [splitAt]
    split
    · simp
    · split <;> simp

theorem splitAt_of_notMem {sep : Char} {t : List Char} (h : sep ∉ t) : splitAt sep t = [t] := by
  induction t with
  | nil => rfl
  | cons c t ih =>
    simp only [List.mem_cons, not_or] at h
    rw [splitAt, ih h.2]
    simp [Ne.symm h.1]

theorem splitAt_append_cons {sep : Char} {t : List Char} (r : List Char) (h : sep ∉ t) :
    splitAt sep (t ++ sep :: r) = t :: splitAt sep r := by
  induction t with
  | nil =>
    simp only [List.nil_append, splitAt]
    split
    · exact absurd ‹_› (splitAt_ne_nil sep r)
    · simp [*]
  | cons c t ih =>
    simp only [List.mem_cons, not_or] at h
    rw [List.cons_append, splitAt, ih h.2]
    simp [Ne.symm h.1]

/-! ## Numbers -/

theorem digitValue_digitChar : ∀ (b : Fin 17) (d : Fin 16), d.val < b.val →
    digitValue b.val (Nat.digitChar d.val) = some d.val ∧
      digitValue b.val (Nat.digitChar d.val).toUpper = some d.val := by decide

theorem digitsValue_of_forall {b : Nat} (hb : b ≤ 16) {t : List Char} {ds : List Nat} (h : ∀ d ∈ ds, d < b)
    (ht : List.Forall₂ (fun c d => c = Nat.digitChar d ∨ c = (Nat.digitChar d).toUpper) t ds) (acc : Nat) :
    digitsValue b acc t = some (ds.foldl (fun m d => m * b + d) acc) := by
  induction ht generalizing acc with
  | nil => rfl
  | @cons c d t ds hc _ ih =>
    have hd := h d (by simp)
    have hv := digitValue_digitChar ⟨b, by omega⟩ ⟨d, by omega⟩ hd
    have hcv : digitValue b c = some d := by
      rcases hc with rfl | rfl
      · exact hv.1
      · exact hv.2
    simp only [digitsValue, hcv, Option.bind_some, List.foldl_cons]
    exact ih (fun d' hd' => h d' (by simp [hd'])) _

/-- A text of digits is not empty, denotes its number, and has only digits in it. -/
theorem digitsText_spec {b : Nat} (hb : b ≤ 16) {t : List Char} {n : Nat} (h : DigitsText b t n) :
    t ≠ [] ∧ digitsValue b 0 t = some n ∧
      ∀ c ∈ t, ∃ d, d < b ∧ (c = Nat.digitChar d ∨ c = (Nat.digitChar d).toUpper) := by
  obtain ⟨ds, hne, hd, ht, rfl⟩ := h
  refine ⟨?_, digitsValue_of_forall hb hd ht 0, ?_⟩
  · rintro rfl
    cases ht
    exact hne rfl
  · intro c hc
    clear hne
    induction ht with
    | nil => cases hc
    | @cons c' d t ds h' _ ih =>
      rcases List.mem_cons.1 hc with rfl | hc
      · exact ⟨d, hd d (by simp), h'⟩
      · exact ih (fun d' hd' => hd d' (by simp [hd'])) hc

theorem digitChar_ne_x : ∀ d : Fin 16, Nat.digitChar d.val ≠ 'x' ∧ (Nat.digitChar d.val).toUpper ≠ 'x' := by decide

theorem parseNumber_of_numberText {t : List Char} {n : Nat} (h : NumberText t n) : parseNumber t = some n := by
  rcases h with h | ⟨u, rfl, h⟩
  · obtain ⟨hne, hv, hc⟩ := digitsText_spec (by omega) h
    have hx : 'x' ∉ t := by
      intro hx
      obtain ⟨d, hd, h1⟩ := hc _ hx
      have h2 := digitChar_ne_x ⟨d, by omega⟩
      rcases h1 with h1 | h1
      · exact h2.1 h1.symm
      · exact h2.2 h1.symm
    unfold parseNumber
    split
    · exact absurd rfl hne
    · simp at hx
    · simp at hx
    · exact hv
  · obtain ⟨hne, hv, _⟩ := digitsText_spec (by omega) h
    match u, hne with
    | c :: u, _ => exact hv

end Sys2Proof.Machine
end

