-- ==== Sys2Proof/Laws/State.lean ====
section
/-! SUPPORT. One lemma per field per update of the state, so that no proof unfolds a record update. -/

namespace Sys2Proof.Machine

/-! ## memWrite -/

@[simp] theorem State.memWrite_params (s : State) (addr : Nat) (bs : List Byte) : (s.memWrite addr bs).params = s.params := rfl
@[simp] theorem State.memWrite_buf (s : State) (addr : Nat) (bs : List Byte) : (s.memWrite addr bs).block.buf = Memory.insertAll s.block.buf addr bs := rfl
@[simp] theorem State.memWrite_crc8 (s : State) (addr : Nat) (bs : List Byte) : (s.memWrite addr bs).block.crc8 = s.block.crc8 := rfl
@[simp] theorem State.memWrite_result (s : State) (addr : Nat) (bs : List Byte) : (s.memWrite addr bs).block.result = s.block.result := rfl
@[simp] theorem State.memWrite_fault (s : State) (addr : Nat) (bs : List Byte) : (s.memWrite addr bs).block.status.fault = s.block.status.fault := rfl
@[simp] theorem State.memWrite_cause (s : State) (addr : Nat) (bs : List Byte) : (s.memWrite addr bs).block.status.cause = s.block.status.cause := rfl
@[simp] theorem State.memWrite_rtype (s : State) (addr : Nat) (bs : List Byte) : (s.memWrite addr bs).block.status.rtype = s.block.status.rtype := rfl
@[simp] theorem State.memWrite_fcmd (s : State) (addr : Nat) (bs : List Byte) : (s.memWrite addr bs).block.fcmd = s.block.fcmd := rfl
@[simp] theorem State.memWrite_prog (s : State) (addr : Nat) (bs : List Byte) : (s.memWrite addr bs).driver.prog = s.driver.prog := rfl
@[simp] theorem State.memWrite_pc (s : State) (addr : Nat) (bs : List Byte) : (s.memWrite addr bs).driver.pc = s.driver.pc := rfl
@[simp] theorem State.memWrite_rst (s : State) (addr : Nat) (bs : List Byte) : (s.memWrite addr bs).driver.rst = s.driver.rst := rfl
@[simp] theorem State.memWrite_resets (s : State) (addr : Nat) (bs : List Byte) : (s.memWrite addr bs).resets = s.resets := rfl

/-! ## setCrc8 -/

@[simp] theorem State.setCrc8_params (s : State) (v : Byte) : (s.setCrc8 v).params = s.params := rfl
@[simp] theorem State.setCrc8_buf (s : State) (v : Byte) : (s.setCrc8 v).block.buf = s.block.buf := rfl
@[simp] theorem State.setCrc8_crc8 (s : State) (v : Byte) : (s.setCrc8 v).block.crc8 = v := rfl
@[simp] theorem State.setCrc8_result (s : State) (v : Byte) : (s.setCrc8 v).block.result = s.block.result := rfl
@[simp] theorem State.setCrc8_fault (s : State) (v : Byte) : (s.setCrc8 v).block.status.fault = s.block.status.fault := rfl
@[simp] theorem State.setCrc8_cause (s : State) (v : Byte) : (s.setCrc8 v).block.status.cause = s.block.status.cause := rfl
@[simp] theorem State.setCrc8_rtype (s : State) (v : Byte) : (s.setCrc8 v).block.status.rtype = s.block.status.rtype := rfl
@[simp] theorem State.setCrc8_fcmd (s : State) (v : Byte) : (s.setCrc8 v).block.fcmd = s.block.fcmd := rfl
@[simp] theorem State.setCrc8_prog (s : State) (v : Byte) : (s.setCrc8 v).driver.prog = s.driver.prog := rfl
@[simp] theorem State.setCrc8_pc (s : State) (v : Byte) : (s.setCrc8 v).driver.pc = s.driver.pc := rfl
@[simp] theorem State.setCrc8_rst (s : State) (v : Byte) : (s.setCrc8 v).driver.rst = s.driver.rst := rfl
@[simp] theorem State.setCrc8_resets (s : State) (v : Byte) : (s.setCrc8 v).resets = s.resets := rfl

/-! ## finish -/

@[simp] theorem State.finish_params (s : State) (v : Word) (ty : RType) : (s.finish v ty).params = s.params := rfl
@[simp] theorem State.finish_buf (s : State) (v : Word) (ty : RType) : (s.finish v ty).block.buf = s.block.buf := rfl
@[simp] theorem State.finish_crc8 (s : State) (v : Word) (ty : RType) : (s.finish v ty).block.crc8 = s.block.crc8 := rfl
@[simp] theorem State.finish_result (s : State) (v : Word) (ty : RType) : (s.finish v ty).block.result = v := rfl
@[simp] theorem State.finish_fault (s : State) (v : Word) (ty : RType) : (s.finish v ty).block.status.fault = s.block.status.fault := rfl
@[simp] theorem State.finish_cause (s : State) (v : Word) (ty : RType) : (s.finish v ty).block.status.cause = s.block.status.cause := rfl
@[simp] theorem State.finish_rtype (s : State) (v : Word) (ty : RType) : (s.finish v ty).block.status.rtype = ty := rfl
@[simp] theorem State.finish_fcmd (s : State) (v : Word) (ty : RType) : (s.finish v ty).block.fcmd = s.block.fcmd := rfl
@[simp] theorem State.finish_prog (s : State) (v : Word) (ty : RType) : (s.finish v ty).driver.prog = s.driver.prog := rfl
@[simp] theorem State.finish_pc (s : State) (v : Word) (ty : RType) : (s.finish v ty).driver.pc = s.driver.pc + 1 := rfl
@[simp] theorem State.finish_rst (s : State) (v : Word) (ty : RType) : (s.finish v ty).driver.rst = s.driver.rst := rfl
@[simp] theorem State.finish_resets (s : State) (v : Word) (ty : RType) : (s.finish v ty).resets = s.resets := rfl

/-! ## finishNothing -/

@[simp] theorem State.finishNothing_params (s : State) : (s.finishNothing).params = s.params := rfl
@[simp] theorem State.finishNothing_buf (s : State) : (s.finishNothing).block.buf = s.block.buf := rfl
@[simp] theorem State.finishNothing_crc8 (s : State) : (s.finishNothing).block.crc8 = s.block.crc8 := rfl
@[simp] theorem State.finishNothing_result (s : State) : (s.finishNothing).block.result = 0 := rfl
@[simp] theorem State.finishNothing_fault (s : State) : (s.finishNothing).block.status.fault = s.block.status.fault := rfl
@[simp] theorem State.finishNothing_cause (s : State) : (s.finishNothing).block.status.cause = s.block.status.cause := rfl
@[simp] theorem State.finishNothing_rtype (s : State) : (s.finishNothing).block.status.rtype = .none := rfl
@[simp] theorem State.finishNothing_fcmd (s : State) : (s.finishNothing).block.fcmd = s.block.fcmd := rfl
@[simp] theorem State.finishNothing_prog (s : State) : (s.finishNothing).driver.prog = s.driver.prog := rfl
@[simp] theorem State.finishNothing_pc (s : State) : (s.finishNothing).driver.pc = s.driver.pc + 1 := rfl
@[simp] theorem State.finishNothing_rst (s : State) : (s.finishNothing).driver.rst = s.driver.rst := rfl
@[simp] theorem State.finishNothing_resets (s : State) : (s.finishNothing).resets = s.resets := rfl

/-! ## raise -/

@[simp] theorem State.raise_params (s : State) (k : Cause) (cmd : Command) : (s.raise k cmd).params = s.params := rfl
@[simp] theorem State.raise_buf (s : State) (k : Cause) (cmd : Command) : (s.raise k cmd).block.buf = s.block.buf := rfl
@[simp] theorem State.raise_crc8 (s : State) (k : Cause) (cmd : Command) : (s.raise k cmd).block.crc8 = s.block.crc8 := rfl
@[simp] theorem State.raise_result (s : State) (k : Cause) (cmd : Command) : (s.raise k cmd).block.result = s.block.result := rfl
@[simp] theorem State.raise_fault (s : State) (k : Cause) (cmd : Command) : (s.raise k cmd).block.status.fault = true := rfl
@[simp] theorem State.raise_cause (s : State) (k : Cause) (cmd : Command) : (s.raise k cmd).block.status.cause = k := rfl
@[simp] theorem State.raise_rtype (s : State) (k : Cause) (cmd : Command) : (s.raise k cmd).block.status.rtype = s.block.status.rtype := rfl
@[simp] theorem State.raise_fcmd (s : State) (k : Cause) (cmd : Command) : (s.raise k cmd).block.fcmd = cmd := rfl
@[simp] theorem State.raise_prog (s : State) (k : Cause) (cmd : Command) : (s.raise k cmd).driver.prog = s.driver.prog := rfl
@[simp] theorem State.raise_pc (s : State) (k : Cause) (cmd : Command) : (s.raise k cmd).driver.pc = s.driver.pc := rfl
@[simp] theorem State.raise_rst (s : State) (k : Cause) (cmd : Command) : (s.raise k cmd).driver.rst = s.driver.rst := rfl
@[simp] theorem State.raise_resets (s : State) (k : Cause) (cmd : Command) : (s.raise k cmd).resets = s.resets := rfl

/-! ## takeReset -/

@[simp] theorem State.takeReset_params (s : State) : (s.takeReset).params = s.params := rfl
@[simp] theorem State.takeReset_buf (s : State) : (s.takeReset).block.buf = [] := rfl
@[simp] theorem State.takeReset_crc8 (s : State) : (s.takeReset).block.crc8 = 0 := rfl
@[simp] theorem State.takeReset_result (s : State) : (s.takeReset).block.result = 0 := rfl
@[simp] theorem State.takeReset_fault (s : State) : (s.takeReset).block.status.fault = false := rfl
@[simp] theorem State.takeReset_cause (s : State) : (s.takeReset).block.status.cause = .none := rfl
@[simp] theorem State.takeReset_rtype (s : State) : (s.takeReset).block.status.rtype = .none := rfl
@[simp] theorem State.takeReset_fcmd (s : State) : (s.takeReset).block.fcmd = 0 := rfl
@[simp] theorem State.takeReset_prog (s : State) : (s.takeReset).driver.prog = s.driver.prog := rfl
@[simp] theorem State.takeReset_pc (s : State) : (s.takeReset).driver.pc = 0 := rfl
@[simp] theorem State.takeReset_rst (s : State) : (s.takeReset).driver.rst = false := rfl
@[simp] theorem State.takeReset_resets (s : State) : (s.takeReset).resets = s.resets + 1 := rfl

/-! ## crc8Update -/

@[simp] theorem State.crc8Update_params (s : State) (addr n : Nat) : (s.crc8Update addr n).params = s.params := rfl
@[simp] theorem State.crc8Update_buf (s : State) (addr n : Nat) : (s.crc8Update addr n).block.buf = s.block.buf := rfl
@[simp] theorem State.crc8Update_crc8 (s : State) (addr n : Nat) : (s.crc8Update addr n).block.crc8 = crc8Bytes s.block.crc8 (s.memRead addr n) := rfl
@[simp] theorem State.crc8Update_result (s : State) (addr n : Nat) : (s.crc8Update addr n).block.result = zextByte (crc8Bytes s.block.crc8 (s.memRead addr n)) := rfl
@[simp] theorem State.crc8Update_fault (s : State) (addr n : Nat) : (s.crc8Update addr n).block.status.fault = s.block.status.fault := rfl
@[simp] theorem State.crc8Update_cause (s : State) (addr n : Nat) : (s.crc8Update addr n).block.status.cause = s.block.status.cause := rfl
@[simp] theorem State.crc8Update_rtype (s : State) (addr n : Nat) : (s.crc8Update addr n).block.status.rtype = .u8 := rfl
@[simp] theorem State.crc8Update_fcmd (s : State) (addr n : Nat) : (s.crc8Update addr n).block.fcmd = s.block.fcmd := rfl
@[simp] theorem State.crc8Update_prog (s : State) (addr n : Nat) : (s.crc8Update addr n).driver.prog = s.driver.prog := rfl
@[simp] theorem State.crc8Update_pc (s : State) (addr n : Nat) : (s.crc8Update addr n).driver.pc = s.driver.pc + 1 := rfl
@[simp] theorem State.crc8Update_rst (s : State) (addr n : Nat) : (s.crc8Update addr n).driver.rst = s.driver.rst := rfl
@[simp] theorem State.crc8Update_resets (s : State) (addr n : Nat) : (s.crc8Update addr n).resets = s.resets := rfl

end Sys2Proof.Machine
end

