-- ==== Sys2Proof/Laws/Memory.lean ====
section
/-! SUPPORT. What the memory operations do: a read after a write, the bytes a write leaves alone, and the canonical form. -/

namespace Sys2Proof.Machine

/-! ## One byte -/

@[simp] theorem Memory.lookup_nil (i : Nat) : Memory.lookup [] i = none := rfl

theorem Memory.lookup_cons (k : Nat) (c : Byte) (m : Memory) (i : Nat) :
    Memory.lookup ((k, c) :: m) i = if i = k then some c else Memory.lookup m i := rfl

theorem Memory.lookup_insert (m : Memory) (i j : Nat) (b : Byte) :
    Memory.lookup (Memory.insert m i b) j = if j = i then some b else Memory.lookup m j := by
  induction m with
  | nil => simp [Memory.insert, Memory.lookup_cons]
  | cons kc m ih =>
    obtain ⟨k, c⟩ := kc
    simp only [Memory.insert]
    split
    · simp [Memory.lookup_cons]
    · split
      · rename_i h
        subst h
        by_cases hj : j = i <;> simp [Memory.lookup_cons, hj]
      · by_cases hj : j = k
        · subst hj
          rw [Memory.lookup_cons, if_pos rfl, if_neg (by omega), Memory.lookup_cons, if_pos rfl]
        · rw [Memory.lookup_cons, if_neg hj, ih, Memory.lookup_cons, if_neg hj]

/-! ## Consecutive bytes -/

theorem Memory.lookup_insertAll_outside (bs : List Byte) :
    ∀ (m : Memory) (addr j : Nat), (j < addr ∨ addr + bs.length ≤ j) →
      Memory.lookup (Memory.insertAll m addr bs) j = Memory.lookup m j := by
  induction bs with
  | nil => intro m addr j _; rfl
  | cons b bs ih =>
    intro m addr j h
    simp only [List.length_cons] at h
    rw [Memory.insertAll, ih _ _ _ (by omega), Memory.lookup_insert, if_neg (by omega)]

theorem Memory.lookup_insertAll_inside (bs : List Byte) :
    ∀ (m : Memory) (addr j : Nat), j < bs.length →
      Memory.lookup (Memory.insertAll m addr bs) (addr + j) = bs[j]? := by
  induction bs with
  | nil => intro m addr j h; simp at h
  | cons b bs ih =>
    intro m addr j h
    rw [Memory.insertAll]
    cases j with
    | zero =>
      rw [Memory.lookup_insertAll_outside bs _ _ _ (by omega), Memory.lookup_insert]
      simp
    | succ j =>
      have := ih (Memory.insert m addr b) (addr + 1) j (by simpa using h)
      rw [show addr + (j + 1) = addr + 1 + j by omega, this]
      simp

/-! ## The canonical form is kept -/

theorem Memory.risingFrom_mono {lo lo' : Nat} (h : lo' ≤ lo) {m : Memory} (hm : Memory.risingFrom lo m = true) :
    Memory.risingFrom lo' m = true := by
  cases m with
  | nil => rfl
  | cons kc m =>
    simp only [Memory.risingFrom, Bool.and_eq_true, decide_eq_true_eq] at hm ⊢
    exact ⟨by omega, hm.2⟩

theorem Memory.risingFrom_insert (m : Memory) (i : Nat) (b : Byte) :
    ∀ lo, lo ≤ i → Memory.risingFrom lo m = true → Memory.risingFrom lo (Memory.insert m i b) = true := by
  induction m with
  | nil => intro lo hlo _; simpa [Memory.insert, Memory.risingFrom] using hlo
  | cons kc m ih =>
    obtain ⟨k, c⟩ := kc
    intro lo hlo hm
    simp only [Memory.risingFrom, Bool.and_eq_true, decide_eq_true_eq] at hm
    simp only [Memory.insert]
    split
    · simp only [Memory.risingFrom, Bool.and_eq_true, decide_eq_true_eq]
      exact ⟨hlo, by omega, hm.2⟩
    · split
      · rename_i h
        subst h
        simp only [Memory.risingFrom, Bool.and_eq_true, decide_eq_true_eq]
        exact ⟨hlo, hm.2⟩
      · simp only [Memory.risingFrom, Bool.and_eq_true, decide_eq_true_eq]
        exact ⟨hm.1, ih (k + 1) (by omega) hm.2⟩

theorem Memory.wf_nil : Memory.wf [] = true := rfl

theorem Memory.wf_insert {m : Memory} (h : Memory.wf m = true) (i : Nat) (b : Byte) :
    Memory.wf (Memory.insert m i b) = true :=
  Memory.risingFrom_insert m i b 0 (Nat.zero_le i) h

theorem Memory.wf_insertAll (bs : List Byte) :
    ∀ (m : Memory) (addr : Nat), Memory.wf m = true → Memory.wf (Memory.insertAll m addr bs) = true := by
  induction bs with
  | nil => intro m addr h; exact h
  | cons b bs ih => intro m addr h; exact ih _ _ (Memory.wf_insert h addr b)

/-! ## No entry comes from nowhere -/

theorem Memory.mem_insert {m : Memory} {i : Nat} {b : Byte} {e : Host.Cell} (h : e ∈ Memory.insert m i b) :
    e = (i, b) ∨ e ∈ m := by
  induction m with
  | nil => left; simpa [Memory.insert] using h
  | cons kc m ih =>
    obtain ⟨k, c⟩ := kc
    simp only [Memory.insert] at h
    split at h
    · simpa using h
    · split at h
      · rcases List.mem_cons.mp h with h | h
        · exact .inl h
        · exact .inr (List.mem_cons_of_mem _ h)
      · rcases List.mem_cons.mp h with h | h
        · exact .inr (by simp [h])
        · exact (ih h).imp id (List.mem_cons_of_mem _)

theorem Memory.mem_insertAll (bs : List Byte) :
    ∀ (m : Memory) (addr : Nat) (e : Host.Cell), e ∈ Memory.insertAll m addr bs →
      (addr ≤ e.1 ∧ e.1 < addr + bs.length) ∨ e ∈ m := by
  induction bs with
  | nil => intro m addr e h; exact .inr h
  | cons b bs ih =>
    intro m addr e h
    simp only [List.length_cons]
    rcases ih _ _ _ h with h | h
    · exact .inl (by omega)
    · rcases Memory.mem_insert h with rfl | h
      · exact .inl (by omega)
      · exact .inr h

/-! ## Through the state -/

theorem State.readByte_congr {s t : State} (hb : t.block.buf = s.block.buf) (hr : t.resets = s.resets) (i : Nat) :
    t.readByte i = s.readByte i := by
  simp [State.readByte, hb, hr]

theorem State.readByte_memWrite_outside (s : State) (addr : Nat) (bs : List Byte) (i : Nat)
    (h : i < addr ∨ addr + bs.length ≤ i) : (s.memWrite addr bs).readByte i = s.readByte i := by
  simp [State.readByte, Memory.lookup_insertAll_outside bs _ _ _ h]

theorem State.readByte_memWrite_inside (s : State) (addr : Nat) (bs : List Byte) (j : Nat) (h : j < bs.length) :
    (s.memWrite addr bs).readByte (addr + j) = bs[j] := by
  simp [State.readByte, Memory.lookup_insertAll_inside bs _ _ _ h, h]

@[simp] theorem State.readByte_finish (s : State) (v : Word) (ty : RType) (i : Nat) :
    (s.finish v ty).readByte i = s.readByte i := rfl

@[simp] theorem State.readByte_finishNothing (s : State) (i : Nat) : s.finishNothing.readByte i = s.readByte i := rfl

@[simp] theorem State.readByte_setCrc8 (s : State) (v : Byte) (i : Nat) : (s.setCrc8 v).readByte i = s.readByte i := rfl

@[simp] theorem State.readByte_raise (s : State) (k : Cause) (cmd : Command) (i : Nat) :
    (s.raise k cmd).readByte i = s.readByte i := rfl

@[simp] theorem State.readByte_crc8Update (s : State) (addr n i : Nat) :
    (s.crc8Update addr n).readByte i = s.readByte i := rfl

theorem State.length_memRead (s : State) (n : Nat) : ∀ addr, (s.memRead addr n).length = n := by
  induction n with
  | zero => intro addr; rfl
  | succ n ih => intro addr; simp [State.memRead, ih]

theorem State.memRead_congr {s t : State} (n : Nat) : ∀ addr,
    (∀ i, addr ≤ i → i < addr + n → t.readByte i = s.readByte i) → t.memRead addr n = s.memRead addr n := by
  induction n with
  | zero => intro addr _; rfl
  | succ n ih =>
    intro addr h
    simp only [State.memRead]
    rw [h addr (by omega) (by omega), ih (addr + 1) fun i hi hj => h i (by omega) (by omega)]

/-- A range read in two parts is the range read whole (41_crc8.md R94). -/
theorem State.memRead_add (s : State) (n m : Nat) : ∀ addr,
    s.memRead addr (n + m) = s.memRead addr n ++ s.memRead (addr + n) m := by
  induction n with
  | zero => intro addr; simp [State.memRead]
  | succ n ih =>
    intro addr
    rw [show n + 1 + m = (n + m) + 1 by omega]
    simp only [State.memRead, ih, List.cons_append]
    rw [show addr + 1 + n = addr + (n + 1) by omega]

end Sys2Proof.Machine
end

