-- ==== Sys2Proof/Laws/Ops.lean ====
section
/-! SUPPORT. Everything a presented command, and a step, can do, said once. -/

namespace Sys2Proof.Machine

/-! ## The three outcomes of a presented command (60_exceptions.md R124) -/

theorem State.ranged_faulted {s : State} (h : s.block.status.fault = true) (cmd : Command) (addr n : Nat)
    (effect : State → State) : s.ranged cmd addr n effect = .next s := by
  simp [State.ranged, h]

theorem State.ranged_inRange {s : State} (h : s.block.status.fault = false) {addr n : Nat}
    (hr : s.InRange addr n) (cmd : Command) (effect : State → State) :
    s.ranged cmd addr n effect = .next (effect s) := by
  rw [State.ranged, if_neg (by simp [h]), if_pos hr]

theorem State.ranged_outOfRange {s : State} (h : s.block.status.fault = false) {addr n : Nat}
    (hr : ¬ s.InRange addr n) (cmd : Command) (effect : State → State) :
    s.ranged cmd addr n effect = .next (s.raise .indexError cmd) := by
  rw [State.ranged, if_neg (by simp [h]), if_neg hr]

/-- Everything `ranged` can answer. -/
theorem State.ranged_cases {s t : State} {cmd : Command} {addr n : Nat} {effect : State → State}
    (h : s.ranged cmd addr n effect = .next t) :
    (s.block.status.fault = true ∧ t = s) ∨
    (s.block.status.fault = false ∧ s.InRange addr n ∧ t = effect s) ∨
    (s.block.status.fault = false ∧ ¬ s.InRange addr n ∧ t = s.raise .indexError cmd) := by
  by_cases hf : s.block.status.fault = true
  · rw [State.ranged_faulted hf] at h
    cases h
    exact .inl ⟨hf, rfl⟩
  · have hf' : s.block.status.fault = false := by simpa using hf
    by_cases hr : s.InRange addr n
    · rw [State.ranged_inRange hf' hr] at h
      cases h
      exact .inr (.inl ⟨hf', hr, rfl⟩)
    · rw [State.ranged_outOfRange hf' hr] at h
      cases h
      exact .inr (.inr ⟨hf', hr, rfl⟩)

theorem State.unranged_cases {s t : State} {effect : State → State} (h : s.unranged effect = .next t) :
    (s.block.status.fault = true ∧ t = s) ∨ (s.block.status.fault = false ∧ t = effect s) := by
  unfold State.unranged at h
  split at h
  · cases h
    exact .inl ⟨‹_›, rfl⟩
  · cases h
    exact .inr ⟨by simpa using ‹¬ s.block.status.fault = true›, rfl⟩

theorem State.illegal_cases {s t : State} {cmd : Command} (h : s.illegal cmd = .next t) :
    (s.block.status.fault = true ∧ t = s) ∨
    (s.block.status.fault = false ∧ t = s.raise .illegalCommand cmd) := by
  unfold State.illegal at h
  split at h
  · cases h
    exact .inl ⟨‹_›, rfl⟩
  · cases h
    exact .inr ⟨by simpa using ‹¬ s.block.status.fault = true›, rfl⟩

/-! ## One transaction -/

theorem State.present_ok {w : Command} {i : Instr} (h : decode w = .ok i) (s : State) : s.present w = exec i s := by
  simp [State.present, h]

theorem State.present_error {w : Command} {e : DecodeError} (h : decode w = .error e) (s : State) :
    s.present w = s.illegal w := by
  simp [State.present, h]

/-- Everything a step that answers a next state did: it took a reset, or it presented the word at `pc`. -/
theorem step_cases {s t : State} (h : step s = .next t) :
    (s.driver.rst = true ∧ t = s.takeReset) ∨
    (s.driver.rst = false ∧ 0 < s.resets ∧
      ∃ w, s.driver.prog[s.driver.pc]? = some w ∧ s.present w = .next t) := by
  unfold step State.transact at h
  split at h
  · cases h
    exact .inl ⟨‹_›, rfl⟩
  · have hr : s.driver.rst = false := by simpa using ‹¬ s.driver.rst = true›
    split at h
    · cases h
    · rename_i w hw
      split at h
      · cases h
      · exact .inr ⟨hr, by omega, w, hw, h⟩

end Sys2Proof.Machine
end

