-- ==== Sys2Proof/Laws/Exec.lean ====
section
/-! SUPPORT. What `exec` answers, for every command at once: the order of the checks, and the state a command that
passes them completes in. -/

namespace Sys2Proof.Machine

/-- The state in which a command completes that passes every check. -/
def completion (i : Instr) (s : State) : State :=
  match i with
  | .wr16le a v => (s.memWrite a.toNat (bytesLe16 v)).finishNothing
  | .wr16be a v => (s.memWrite a.toNat (bytesBe16 v)).finishNothing
  | .wr32le a v => (s.memWrite a.toNat (bytesLe32 v)).finishNothing
  | .wr32be a v => (s.memWrite a.toNat (bytesBe32 v)).finishNothing
  | .rd16le a => s.finish (zextHalf (s.readLe16 a.toNat)) .u16
  | .rd16be a => s.finish (zextHalf (s.readBe16 a.toNat)) .u16
  | .rd32le a => s.finish (s.readLe32 a.toNat) .u32
  | .rd32be a => s.finish (s.readBe32 a.toNat) .u32
  | .rdi16le a => s.finish (zextHalf (s.readLe16 a.toNat)) .s16
  | .crc8Init => (s.setCrc8 0).finishNothing
  | .crc8Upd a n => s.crc8Update a.toNat n.toNat
  | .crc16Modbus a n => s.finish (zextHalf (crc16Bytes (s.memRead a.toNat n.toNat))) .u16
  | .putb a b => (s.memWrite a.toNat [b]).finishNothing
  | .getb a => s.finish (zextByte (s.readByte a.toNat)) .u8

/-! ## The order of the checks (60_exceptions.md R124) -/

/-- Every command of the block but `CRC8.INIT` checks its range and completes. -/
theorem exec_eq_ranged {i : Instr} {s : State} (hi : i ≠ .crc8Init) (hw : i.wellFormed s.params = true) :
    exec i s = s.ranged (encode i) i.fieldA.toNat (byteCount i) (completion i) := by
  cases i with
  | rd16be a => exact if_pos hw
  | crc8Init => exact absurd rfl hi
  | _ => rfl

theorem exec_crc8Init (s : State) : exec .crc8Init s = s.unranged (completion .crc8Init) := rfl

theorem exec_eq_illegal {i : Instr} {s : State} (hw : i.wellFormed s.params = false) :
    exec i s = s.illegal (encode i) := by
  cases i with
  | rd16be a => exact if_neg (by simpa [Instr.wellFormed] using hw)
  | _ => exact absurd hw (by simp [Instr.wellFormed])

theorem exec_faulted {s : State} (h : s.block.status.fault = true) (i : Instr) : exec i s = .next s := by
  by_cases hi : i = .crc8Init
  · subst hi
    exact if_pos h
  · by_cases hw : i.wellFormed s.params = true
    · rw [exec_eq_ranged hi hw, State.ranged_faulted h]
    · rw [exec_eq_illegal (by simpa using hw), State.illegal, if_pos h]

theorem exec_absent {s : State} (h : s.block.status.fault = false) {i : Instr} (hw : i.wellFormed s.params = false) :
    exec i s = .next (s.raise .illegalCommand (encode i)) := by
  rw [exec_eq_illegal hw, State.illegal, if_neg (by simp [h])]

theorem exec_outOfRange {s : State} (h : s.block.status.fault = false) {i : Instr}
    (hw : i.wellFormed s.params = true) (hi : i ≠ .crc8Init) (hr : ¬ s.InRange i.fieldA.toNat (byteCount i)) :
    exec i s = .next (s.raise .indexError (encode i)) := by
  rw [exec_eq_ranged hi hw, State.ranged_outOfRange h hr]

theorem exec_completes {s : State} (h : s.block.status.fault = false) {i : Instr}
    (hw : i.wellFormed s.params = true) (hr : i ≠ .crc8Init → s.InRange i.fieldA.toNat (byteCount i)) :
    exec i s = .next (completion i s) := by
  by_cases hi : i = .crc8Init
  · subst hi
    rw [exec_crc8Init, State.unranged, if_neg (by simp [h])]
  · rw [exec_eq_ranged hi hw, State.ranged_inRange h (hr hi)]

/-- Everything a presented command can do. -/
theorem exec_cases {i : Instr} {s t : State} (h : exec i s = .next t) :
    (s.block.status.fault = true ∧ t = s) ∨
    (s.block.status.fault = false ∧ i.wellFormed s.params = false ∧ t = s.raise .illegalCommand (encode i)) ∨
    (s.block.status.fault = false ∧ i.wellFormed s.params = true ∧ i ≠ .crc8Init ∧
      ¬ s.InRange i.fieldA.toNat (byteCount i) ∧ t = s.raise .indexError (encode i)) ∨
    (s.block.status.fault = false ∧ i.wellFormed s.params = true ∧
      (i ≠ .crc8Init → s.InRange i.fieldA.toNat (byteCount i)) ∧ t = completion i s) := by
  by_cases hf : s.block.status.fault = true
  · rw [exec_faulted hf] at h
    cases h
    exact .inl ⟨hf, rfl⟩
  have hf' : s.block.status.fault = false := by simpa using hf
  by_cases hw : i.wellFormed s.params = true
  · by_cases hr : i ≠ .crc8Init → s.InRange i.fieldA.toNat (byteCount i)
    · rw [exec_completes hf' hw hr] at h
      cases h
      exact .inr (.inr (.inr ⟨hf', hw, hr, rfl⟩))
    · have hi : i ≠ .crc8Init := fun e => hr fun hn => absurd e hn
      have hr' : ¬ s.InRange i.fieldA.toNat (byteCount i) := fun hi' => hr fun _ => hi'
      rw [exec_outOfRange hf' hw hi hr'] at h
      cases h
      exact .inr (.inr (.inl ⟨hf', hw, hi, hr', rfl⟩))
  · have hw' : i.wellFormed s.params = false := by simpa using hw
    rw [exec_absent hf' hw'] at h
    cases h
    exact .inr (.inl ⟨hf', hw', rfl⟩)

/-! ## What a completion leaves (10_state.md R13 to R17) -/

theorem State.returned_finish (s : State) (v : Word) (ty : RType) : s.Returned (s.finish v ty) v ty :=
  ⟨rfl, rfl, rfl, rfl, rfl, rfl, rfl, rfl, rfl, rfl⟩

theorem State.returned_memWrite (s : State) (addr : Nat) (bs : List Byte) :
    s.Returned (s.memWrite addr bs).finishNothing 0 .none :=
  ⟨rfl, rfl, rfl, rfl, rfl, rfl, rfl, rfl, rfl, rfl⟩

theorem State.returned_crc8Update (s : State) (addr n : Nat) :
    s.Returned (s.crc8Update addr n) (zextByte (s.crc8Update addr n).block.crc8) .u8 :=
  ⟨rfl, rfl, rfl, rfl, rfl, rfl, rfl, rfl, rfl, rfl⟩

theorem State.faulted_raise (s : State) (k : Cause) (cmd : Command) : s.Faulted (s.raise k cmd) k cmd :=
  ⟨rfl, rfl, rfl, rfl, rfl, rfl, rfl, rfl, rfl, rfl⟩

theorem returned_completion (i : Instr) (s : State) :
    s.Returned (completion i s) (completion i s).block.result (completion i s).block.status.rtype := by
  cases i <;> exact ⟨rfl, rfl, rfl, rfl, rfl, rfl, rfl, rfl, rfl, rfl⟩

theorem zextByte_lt (v : Byte) : (zextByte v).toNat < 2 ^ 8 := by
  simp only [zextByte, BitVec.toNat_setWidth]
  omega

theorem zextHalf_lt (v : Half) : (zextHalf v).toNat < 2 ^ 16 := by
  simp only [zextHalf, BitVec.toNat_setWidth]
  omega

theorem completion_fits (i : Instr) (s : State) :
    (completion i s).block.result.toNat < 2 ^ (completion i s).block.status.rtype.width := by
  cases i with
  | rd16le a => exact zextHalf_lt _
  | rd16be a => exact zextHalf_lt _
  | rdi16le a => exact zextHalf_lt _
  | crc16Modbus a n => exact zextHalf_lt _
  | rd32le a => exact BitVec.isLt _
  | rd32be a => exact BitVec.isLt _
  | crc8Upd a n => exact zextByte_lt _
  | getb a => exact zextByte_lt _
  | _ => exact Nat.one_pos

/-! ## The bytes a completion touches (20_memory.md R35) -/

theorem completion_sameBytesOutside (i : Instr) (s : State) :
    s.SameBytesOutside (completion i s) i.fieldA.toNat (byteCount i) := by
  intro j hj
  cases i with
  | wr16le a v => exact State.readByte_memWrite_outside _ _ _ _ hj
  | wr16be a v => exact State.readByte_memWrite_outside _ _ _ _ hj
  | wr32le a v => exact State.readByte_memWrite_outside _ _ _ _ hj
  | wr32be a v => exact State.readByte_memWrite_outside _ _ _ _ hj
  | putb a b => exact State.readByte_memWrite_outside _ _ _ _ hj
  | _ => rfl

theorem completion_wf (i : Instr) {s : State} (h : Memory.wf s.block.buf = true) :
    Memory.wf (completion i s).block.buf = true := by
  cases i with
  | wr16le a v => exact Memory.wf_insertAll _ _ _ h
  | wr16be a v => exact Memory.wf_insertAll _ _ _ h
  | wr32le a v => exact Memory.wf_insertAll _ _ _ h
  | wr32be a v => exact Memory.wf_insertAll _ _ _ h
  | putb a b => exact Memory.wf_insertAll _ _ _ h
  | _ => exact h

/-- Every entry of the memory after a completion was there before or lies in the command's range. -/
theorem completion_mem (i : Instr) {s : State} {e : Host.Cell} (h : e ∈ (completion i s).block.buf) :
    (e.1 < i.fieldA.toNat + byteCount i ∧ i ≠ .crc8Init) ∨ e ∈ s.block.buf := by
  have inside : ∀ {a : Nat} {bs : List Byte}, e ∈ Memory.insertAll s.block.buf a bs →
      e.1 < a + bs.length ∨ e ∈ s.block.buf := fun h => (Memory.mem_insertAll _ _ _ _ h).imp And.right id
  cases i with
  | wr16le a v => exact (inside h).imp (fun h => ⟨h, nofun⟩) id
  | wr16be a v => exact (inside h).imp (fun h => ⟨h, nofun⟩) id
  | wr32le a v => exact (inside h).imp (fun h => ⟨h, nofun⟩) id
  | wr32be a v => exact (inside h).imp (fun h => ⟨h, nofun⟩) id
  | putb a b => exact (inside h).imp (fun h => ⟨h, nofun⟩) id
  | _ => exact .inr h

/-- `CRC8` after a completion is as before but under the two CRC-8 commands (41_crc8.md R96). -/
theorem completion_crc8 (i : Instr) (s : State) :
    (completion i s).block.crc8 = s.block.crc8 ∨ i = .crc8Init ∨ ∃ a n, i = .crc8Upd a n := by
  cases i with
  | crc8Init => exact .inr (.inl rfl)
  | crc8Upd a n => exact .inr (.inr ⟨a, n, rfl⟩)
  | _ => exact .inl rfl

/-- A range read is the list of its bytes in ascending order (20_memory.md R40). -/
theorem State.memRead_eq_map (s : State) (n : Nat) : ∀ addr,
    s.memRead addr n = (List.range n).map fun k => s.readByte (addr + k) := by
  induction n with
  | zero => intro addr; rfl
  | succ n ih =>
    intro addr
    rw [State.memRead, ih, List.range_succ_eq_map]
    simp [Function.comp_def, Nat.add_assoc, Nat.add_comm 1]

end Sys2Proof.Machine
end

