-- ==== Sys2Proof/Laws/Crc.lean ====
section
/-! SUPPORT. The two CRC iterations are linear (41_crc8.md R90; 42_crc16.md R100). -/

namespace Sys2Proof.Machine

theorem crc8Shift_xor (t u : Byte) : crc8Shift (t ^^^ u) = crc8Shift t ^^^ crc8Shift u := by
  simp only [crc8Shift, BitVec.getLsbD_xor, BitVec.shiftLeft_xor_distrib]
  cases t.getLsbD 7 <;> cases u.getLsbD 7 <;> simp
  · exact (BitVec.xor_assoc _ _ _)
  · rw [BitVec.xor_assoc, BitVec.xor_assoc, BitVec.xor_comm 7#8]
  · rw [BitVec.xor_assoc, ← BitVec.xor_assoc 7#8, BitVec.xor_comm 7#8, BitVec.xor_assoc, BitVec.xor_self,
      BitVec.xor_zero]

theorem crc16Shift_xor (t u : Half) : crc16Shift (t ^^^ u) = crc16Shift t ^^^ crc16Shift u := by
  simp only [crc16Shift, BitVec.getLsbD_xor, BitVec.ushiftRight_xor_distrib]
  cases t.getLsbD 0 <;> cases u.getLsbD 0 <;> simp
  · exact (BitVec.xor_assoc _ _ _)
  · rw [BitVec.xor_assoc, BitVec.xor_assoc, BitVec.xor_comm 40961#16]
  · rw [BitVec.xor_assoc, ← BitVec.xor_assoc 40961#16, BitVec.xor_comm 40961#16, BitVec.xor_assoc, BitVec.xor_self,
      BitVec.xor_zero]

end Sys2Proof.Machine
end

