-- ==== Sys2Proof/Laws/PerInstr.lean ====
section
/-! SUPPORT. Facts about every command as syntax, one lemma per constructor. -/

namespace Sys2Proof

/-! ## The fields of a packed word (30_encoding.md R50) -/

theorem Command.op_pack (op rsv : Byte) (a : Offset) (b : Word) : (Command.pack op rsv a b).op = op := by
  ext i hi
  simp only [Command.op, Command.pack, BitVec.getElem_extractLsb', BitVec.getLsbD_append]
  rw [← BitVec.getLsbD_eq_getElem]
  simp [show ¬ (56 + i < 32) by omega, show ¬ (56 + i - 32 < 16) by omega, show ¬ (56 + i - 32 - 16 < 8) by omega,
    show 56 + i - 32 - 16 - 8 = i by omega]

theorem Command.rsv_pack (op rsv : Byte) (a : Offset) (b : Word) : (Command.pack op rsv a b).rsv = rsv := by
  ext i hi
  simp only [Command.rsv, Command.pack, BitVec.getElem_extractLsb', BitVec.getLsbD_append]
  rw [← BitVec.getLsbD_eq_getElem]
  rw [if_neg (by omega), if_neg (by omega), if_pos (by omega), show 48 + i - 32 - 16 = i by omega]

theorem Command.a_pack (op rsv : Byte) (a : Offset) (b : Word) : (Command.pack op rsv a b).a = a := by
  ext i hi
  simp only [Command.a, Command.pack, BitVec.getElem_extractLsb', BitVec.getLsbD_append]
  rw [← BitVec.getLsbD_eq_getElem]
  rw [if_neg (by omega), if_pos (by omega), show 32 + i - 32 = i by omega]

theorem Command.b_pack (op rsv : Byte) (a : Offset) (b : Word) : (Command.pack op rsv a b).b = b := by
  ext i hi
  simp only [Command.b, Command.pack, BitVec.getElem_extractLsb', BitVec.getLsbD_append]
  rw [← BitVec.getLsbD_eq_getElem]
  simp [hi]

end Sys2Proof

namespace Sys2Proof.Laws.Encoding

/-- A command's word carries its row's `OP`, a zero `RSV`, and its operands in `A` and `B` (30_encoding.md R50 to R53). -/
def Statement (i : Instr) : Prop :=
  (encode i).op = i.opcode.byte ∧ (encode i).rsv = 0 ∧ (encode i).a = i.fieldA ∧ (encode i).b = i.fieldB

/-- The one proof of all of them. -/
theorem of_pack (i : Instr) : Statement i :=
  ⟨Command.op_pack _ _ _ _, Command.rsv_pack _ _ _ _, Command.a_pack _ _ _ _, Command.b_pack _ _ _ _⟩

theorem wr16le (a : Offset) (v : Half) : Statement (.wr16le a v) := of_pack _
theorem wr16be (a : Offset) (v : Half) : Statement (.wr16be a v) := of_pack _
theorem wr32le (a : Offset) (v : Word) : Statement (.wr32le a v) := of_pack _
theorem wr32be (a : Offset) (v : Word) : Statement (.wr32be a v) := of_pack _
theorem rd16le (a : Offset) : Statement (.rd16le a) := of_pack _
theorem rd16be (a : Offset) : Statement (.rd16be a) := of_pack _
theorem rd32le (a : Offset) : Statement (.rd32le a) := of_pack _
theorem rd32be (a : Offset) : Statement (.rd32be a) := of_pack _
theorem rdi16le (a : Offset) : Statement (.rdi16le a) := of_pack _
theorem crc8Init : Statement .crc8Init := of_pack _
theorem crc8Upd (a : Offset) (n : Word) : Statement (.crc8Upd a n) := of_pack _
theorem crc16Modbus (a : Offset) (n : Word) : Statement (.crc16Modbus a n) := of_pack _
theorem putb (a : Offset) (b : Byte) : Statement (.putb a b) := of_pack _
theorem getb (a : Offset) : Statement (.getb a) := of_pack _

end Sys2Proof.Laws.Encoding
end

