-- ==== Sys2Proof/Laws/Encode.lean ====
section
/-! SUPPORT. The command word taken apart and put together, and what each part of the decoder accepts. -/

namespace Sys2Proof

/-! ## The word and its four fields (30_encoding.md R50) -/

theorem Command.pack_fields (w : Command) : Command.pack w.op w.rsv w.a w.b = w := by
  apply BitVec.eq_of_getLsbD_eq
  intro i hi
  simp only [Command.pack, Command.op, Command.rsv, Command.a, Command.b, BitVec.getLsbD_append,
    BitVec.getLsbD_extractLsb']
  split
  · simp_all
  · split
    · rw [show 32 + (i - 32) = i by omega]
      simp_all
    · split
      · rw [show 48 + (i - 32 - 16) = i by omega]
        simp_all
      · rw [show 56 + (i - 32 - 16 - 8) = i by omega]
        simp
        omega

theorem Command.pack_inj {op op' rsv rsv' : Byte} {a a' : Offset} {b b' : Word} :
    Command.pack op rsv a b = Command.pack op' rsv' a' b' ↔ op = op' ∧ rsv = rsv' ∧ a = a' ∧ b = b' := by
  constructor
  · intro h
    refine ⟨?_, ?_, ?_, ?_⟩
    · simpa only [Command.op_pack] using congrArg Command.op h
    · simpa only [Command.rsv_pack] using congrArg Command.rsv h
    · simpa only [Command.a_pack] using congrArg Command.a h
    · simpa only [Command.b_pack] using congrArg Command.b h
  · rintro ⟨rfl, rfl, rfl, rfl⟩
    rfl

theorem Command.pack_and (op op' rsv rsv' : Byte) (a a' : Offset) (b b' : Word) :
    Command.pack op rsv a b &&& Command.pack op' rsv' a' b' =
      Command.pack (op &&& op') (rsv &&& rsv') (a &&& a') (b &&& b') := by
  apply BitVec.eq_of_getLsbD_eq
  intro i hi
  rw [BitVec.getLsbD_and]
  simp only [Command.pack, BitVec.getLsbD_append]
  split
  · simp
  · split
    · simp
    · split <;> simp

theorem Command.toNat_pack (op : Byte) (a : Offset) (b : Word) :
    (Command.pack op 0 a b).toNat = op.toNat * 2 ^ 56 + a.toNat * 2 ^ 32 + b.toNat := by
  unfold Command.pack
  simp only [BitVec.toNat_append]
  rw [← Nat.shiftLeft_add_eq_or_of_lt b.isLt, ← Nat.shiftLeft_add_eq_or_of_lt a.isLt]
  simp [Nat.shiftLeft_eq]
  omega

/-! ## `OP` (30_encoding.md R53) -/

theorem opcodeOfByte_byte (o : Opcode) : opcodeOfByte o.byte = some o := by cases o <;> decide

theorem eq_byte_of_opcodeOfByte {op : Byte} {o : Opcode} (h : opcodeOfByte op = some o) : op = o.byte := by
  have all : ∀ n : Fin 256, ∀ o ∈ opcodeOfByte (BitVec.ofNat 8 n.val), BitVec.ofNat 8 n.val = o.byte := by
    decide +kernel
  simpa using all ⟨op.toNat, op.isLt⟩ o (by simpa using h)

/-! ## `B` of the narrow forms (30_encoding.md R52) -/

theorem extract_low_of_half (v : Half) : (v.setWidth 32).extractLsb' 0 16 = v := by
  apply BitVec.eq_of_getLsbD_eq
  intro i hi
  simp [hi]
  omega

theorem extract_high_of_half (v : Half) : (v.setWidth 32).extractLsb' 16 16 = 0 := by
  ext i hi
  simp [BitVec.getElem_extractLsb']

theorem extract_low_of_byte (v : Byte) : (v.setWidth 32).extractLsb' 0 8 = v := by
  apply BitVec.eq_of_getLsbD_eq
  intro i hi
  simp [hi]
  omega

theorem extract_high_of_byte (v : Byte) : (v.setWidth 32).extractLsb' 8 24 = 0 := by
  ext i hi
  simp [BitVec.getElem_extractLsb']

theorem half_of_extract_low {b : Word} (h : b.extractLsb' 16 16 = 0) : (b.extractLsb' 0 16).setWidth 32 = b := by
  ext i hi
  have hb := congrArg (fun x : BitVec 16 => x.getLsbD (i - 16)) h
  simp at hb
  simp
  by_cases hlow : i < 16
  · simp [hlow, BitVec.getLsbD_eq_getElem hi]
  · rw [show 16 + (i - 16) = i by omega, BitVec.getLsbD_eq_getElem hi] at hb
    simp [hlow, hb (by omega)]

theorem byte_of_extract_low {b : Word} (h : b.extractLsb' 8 24 = 0) : (b.extractLsb' 0 8).setWidth 32 = b := by
  ext i hi
  have hb := congrArg (fun x : BitVec 24 => x.getLsbD (i - 8)) h
  simp at hb
  simp
  by_cases hlow : i < 8
  · simp [hlow, BitVec.getLsbD_eq_getElem hi]
  · rw [show 8 + (i - 8) = i by omega, BitVec.getLsbD_eq_getElem hi] at hb
    simp [hlow, hb (by omega)]

/-- Operands that are accepted are the fields as they stand. -/
theorem decodeOperands_fields {o : Opcode} {a : Offset} {b : Word} {i : Instr} (h : decodeOperands o a b = .ok i) :
    i.opcode = o ∧ i.fieldA = a ∧ i.fieldB = b := by
  cases o <;> simp only [decodeOperands] at h <;> (try split at h) <;> simp at h <;> subst h <;>
    simp_all [Instr.opcode, Instr.fieldA, Instr.fieldB, half_of_extract_low, byte_of_extract_low]

end Sys2Proof
end

