-- ==== Sys2Proof/Laws/Operands.lean ====
section
/-! SUPPORT. Bytes put together into integers and taken apart again (20_memory.md R32, R33). -/

namespace Sys2Proof.Machine

theorem toNat_two_bytes (x y : Byte) : (x ++ y : Half).toNat = 256 * x.toNat + y.toNat := by
  rw [BitVec.toNat_append, ← Nat.shiftLeft_add_eq_or_of_lt y.isLt, Nat.shiftLeft_eq]
  omega

theorem toNat_four_bytes (x y z w : Byte) :
    (x ++ y ++ z ++ w : Word).toNat = 2 ^ 24 * x.toNat + 2 ^ 16 * y.toNat + 2 ^ 8 * z.toNat + w.toNat := by
  simp only [BitVec.toNat_append]
  rw [← Nat.shiftLeft_add_eq_or_of_lt w.isLt, ← Nat.shiftLeft_add_eq_or_of_lt z.isLt,
    ← Nat.shiftLeft_add_eq_or_of_lt y.isLt]
  simp only [Nat.shiftLeft_eq]
  omega

theorem half_of_bytes (v : Half) : (v.extractLsb' 8 8 ++ v.extractLsb' 0 8 : Half) = v := by
  apply BitVec.eq_of_getLsbD_eq
  intro i hi
  rw [BitVec.getLsbD_append, BitVec.getLsbD_extractLsb', BitVec.getLsbD_extractLsb']
  split
  · simp_all
  · rw [show 8 + (i - 8) = i by omega]
    simp
    omega

theorem word_of_bytes (v : Word) :
    (v.extractLsb' 24 8 ++ v.extractLsb' 16 8 ++ v.extractLsb' 8 8 ++ v.extractLsb' 0 8 : Word) = v := by
  apply BitVec.eq_of_getLsbD_eq
  intro i hi
  simp only [BitVec.getLsbD_append, BitVec.getLsbD_extractLsb']
  split
  · simp_all
  · split
    · rw [show 8 + (i - 8) = i by omega]
      simp_all
    · split
      · rw [show 16 + (i - 8 - 8) = i by omega]
        simp_all
      · rw [show 24 + (i - 8 - 8 - 8) = i by omega]
        simp
        omega

theorem extract_zextHalf (v : Half) : (zextHalf v).extractLsb' 0 16 = v := extract_low_of_half v

theorem extract_zextByte (v : Byte) : (zextByte v).extractLsb' 0 8 = v := extract_low_of_byte v

/-- The byte a store puts at an offset of its range. -/
theorem readByte_stored (s : State) (addr : Nat) (bs : List Byte) (k : Nat) (h : k < bs.length) :
    (s.memWrite addr bs).finishNothing.readByte (addr + k) = bs[k] :=
  State.readByte_memWrite_inside s addr bs k h

end Sys2Proof.Machine
end

