-- ==== Sys2Proof/Tests/Slice0.lean ====
section
/-! SUPPORT. The model's own tests: words written out from the patterns of 30_encoding.md R53, one or two single steps a
command from spec/95_test_vectors.md, the ill-formed command, and for every statement with hypotheses a state that meets
them. -/

open Sys2Proof Sys2Proof.Machine

/-! ## Helpers -/

/-- The state after reset with these bytes of `BUF` and this `CRC8`. -/
def testState (buf : Memory) (crc8 : Byte) : State :=
  { State.reset with block := { Block.afterReset with buf := buf, crc8 := crc8 } }

/-- The same with `RD16BE` present. -/
def testStateRd16be (buf : Memory) : State :=
  { testState buf 0 with params := { bufBytes := 256, implRd16be := true } }

/-- The state after reset with a list of words to present. -/
def testProgram (prog : List Command) : State :=
  { State.reset with driver := { prog := prog, pc := 0, rst := false } }

/-- A faulted state whose faulting word is the one at `pc`, with a reset waiting or not. -/
def testFaulted (rst : Bool) : State :=
  { testProgram [0] with
    block := { Block.afterReset with
      status := { fault := true, cause := .illegalCommand, rtype := .none }, fcmd := 0 }
    driver := { prog := [0], pc := 0, rst := rst } }

/-- A reading of the next state. -/
def after {α : Type} (r : Result) (f : State → α) : Option α :=
  match r with
  | .next s => some (f s)
  | .fault _ => none
  | .refused _ => none

/-! ## The ill-formed command (00_scope.md R3) -/

theorem test_rd16be_is_ill_formed_by_default : Instr.wellFormed Params.default (.rd16be 0) = false := by decide

theorem test_rd16be_is_well_formed_with_option :
    Instr.wellFormed { bufBytes := 256, implRd16be := true } (.rd16be 0) = true := by decide

/-! ## Decoding: each word is the row's pattern of R53 with operand bits filled in -/

theorem test_decode_wr16le :
    decode 0b0001000000000000000000000000011100000000000000000000000011111111 = .ok (.wr16le 7 0x00FF) := by
  decide

theorem test_decode_wr16be :
    decode 0b0001000100000000000000001111111000000000000000001010101111001101 = .ok (.wr16be 254 0xABCD) := by
  decide

theorem test_decode_wr32le :
    decode 0b0001001000000000000000000000000110000000000000000000000000000001 = .ok (.wr32le 1 0x80000001) := by
  decide

theorem test_decode_wr32be :
    decode 0b0001001100000000000000001111110000000001000000100000001100000100 = .ok (.wr32be 252 0x01020304) := by
  decide

theorem test_decode_rd16le :
    decode 0b0001100000000000000000000000010100000000000000000000000000000000 = .ok (.rd16le 5) := by
  decide

theorem test_decode_rd16be :
    decode 0b0001100100000000100000000000000100000000000000000000000000000000 = .ok (.rd16be 0x8001) := by
  decide

theorem test_decode_rd32le :
    decode 0b0001101000000000000000001111110000000000000000000000000000000000 = .ok (.rd32le 252) := by
  decide

theorem test_decode_rd32be :
    decode 0b0001101100000000000000001111110100000000000000000000000000000000 = .ok (.rd32be 253) := by
  decide

theorem test_decode_rdi16le :
    decode 0b0001110000000000000000000000010000000000000000000000000000000000 = .ok (.rdi16le 4) := by
  decide

theorem test_decode_crc8_init :
    decode 0b0010000000000000000000000000000000000000000000000000000000000000 = .ok (.crc8Init) := by
  decide

theorem test_decode_crc8_upd :
    decode 0b0010000100000000111111111111111110000000000000000000000000000001 = .ok (.crc8Upd 0xFFFF 0x80000001) := by
  decide

theorem test_decode_crc16_modbus :
    decode 0b0011000000000000000000000000000011111111111111111111111111111111 = .ok (.crc16Modbus 0 0xFFFFFFFF) := by
  decide

theorem test_decode_putb :
    decode 0b0100000000000000000000000000001000000000000000000000000011111111 = .ok (.putb 2 0xFF) := by
  decide

theorem test_decode_getb :
    decode 0b0100000100000000000000010000000000000000000000000000000000000000 = .ok (.getb 256) := by
  decide

theorem test_decode_reserved_byte : decode 0x1801000000000000 = .error (.reservedNotZero .rd16le) := by decide

theorem test_decode_zero_word : decode 0 = .error (.unassignedOp 0) := by decide

theorem test_table_word : decodeTableWord 64 0x4100000900000000 = some (.getb 9) := by decide

/-! ## One step a command, from 95_test_vectors.md sections 2.1 to 2.5 -/

theorem test_wr16le_odd_offset :
    after (exec (.wr16le 7 0x00FF) (testState [] 0)) (·.block.buf) = some [(7, 0xFF), (8, 0x00)] := by decide

theorem test_wr16le_last_byte_faults :
    after (exec (.wr16le 255 0x1234) (testState [(255, 0xBB)] 0)) (fun s => (s.block.buf, s.outputs)) =
      some ([(255, 0xBB)], { result := 0, status := 0x03, fcmd := 0x100000FF00001234 }) := by decide

theorem test_wr16be : after (exec (.wr16be 0 0x1234) (testState [] 0)) (·.block.buf) = some [(0, 0x12), (1, 0x34)] := by
  decide

theorem test_wr16be_overwrites :
    after (exec (.wr16be 5 0x8000) (testState [(4, 0xFE), (5, 0xFF)] 0)) (·.block.buf) =
      some [(4, 0xFE), (5, 0x80), (6, 0x00)] := by decide

theorem test_wr32le : after (exec (.wr32le 1 0x80000001) (testState [] 0)) (·.block.buf) =
    some [(1, 0x01), (2, 0x00), (3, 0x00), (4, 0x80)] := by decide

theorem test_wr32le_stores_nothing_on_fault :
    after (exec (.wr32le 254 0xDEADBEEF) (testState [(254, 0x34), (255, 0x12)] 0)) (fun s => (s.block.buf, s.block.fcmd)) =
      some ([(254, 0x34), (255, 0x12)], 0x120000FEDEADBEEF) := by decide

theorem test_wr32be_last_offset : after (exec (.wr32be 252 0x01020304) (testState [] 0)) (·.block.buf) =
    some [(252, 0x01), (253, 0x02), (254, 0x03), (255, 0x04)] := by decide

theorem test_rd16le : after (exec (.rd16le 0) (testState [(0, 0x00), (1, 0x80)] 0)) (fun s => (s.outputs, s.value)) =
    some ({ result := 0x00008000, status := 0x20, fcmd := 0 }, some 32768) := by decide

theorem test_rd16be : after (exec (.rd16be 0) (testStateRd16be [(0, 0x12), (1, 0x34)])) State.outputs =
    some { result := 0x00001234, status := 0x20, fcmd := 0 } := by decide

theorem test_rd16be_absent : after (exec (.rd16be 0) (testState [(0, 0x12), (1, 0x34)] 0)) State.outputs =
    some { result := 0, status := 0x05, fcmd := 0x1900000000000000 } := by decide

theorem test_rd32le :
    after (exec (.rd32le 252) (testState [(252, 0x00), (253, 0x00), (254, 0x00), (255, 0x80)] 0)) State.outputs =
      some { result := 0x80000000, status := 0x40, fcmd := 0 } := by decide

theorem test_rd32le_out_of_range : after (exec (.rd32le 253) (testState [] 0)) State.outputs =
    some { result := 0, status := 0x03, fcmd := 0x1A0000FD00000000 } := by decide

theorem test_rd32be :
    after (exec (.rd32be 252) (testState [(252, 0x00), (253, 0x00), (254, 0x00), (255, 0x80)] 0)) State.outputs =
      some { result := 0x00000080, status := 0x40, fcmd := 0 } := by decide

theorem test_rdi16le_negative :
    after (exec (.rdi16le 0) (testState [(0, 0xFE), (1, 0xFF)] 0)) (fun s => (s.outputs, s.value)) =
      some ({ result := 0x0000FFFE, status := 0x30, fcmd := 0 }, some (-2)) := by decide

theorem test_rdi16le_sign_is_in_high_byte :
    after (exec (.rdi16le 0) (testState [(0, 0x80), (1, 0x00)] 0)) State.value = some (some 128) := by decide

theorem test_crc8_init : after (exec .crc8Init (testState [] 0x48)) (·.block.crc8) = some 0x00 := by decide

theorem test_crc8_upd_source_vector :
    after (exec (.crc8Upd 0 5) (testState [(0, 0xCE), (1, 0xFB), (2, 0xA2), (3, 0x08), (4, 0x53)] 0))
      (fun s => (s.block.crc8, s.outputs)) = some (0x0C, { result := 0x0C, status := 0x10, fcmd := 0 }) := by
  decide +kernel

theorem test_crc8_upd_continues :
    after (exec (.crc8Upd 0 5) (testState [(0, 0xCE), (1, 0xFB), (2, 0xA2), (3, 0x08), (4, 0x53)] 0x48))
      (·.block.crc8) = some 0xDD := by decide +kernel

theorem test_crc16_source_vector :
    after (exec (.crc16Modbus 0 8) (testState [(0, 0x48), (1, 0x1A), (2, 0x6A), (3, 0x0A), (4, 0x08), (5, 0x03),
      (6, 0x03), (7, 0x03)] 0)) State.outputs = some { result := 0x0000C6DD, status := 0x20, fcmd := 0 } := by
  decide +kernel

theorem test_crc16_no_wrap : after (exec (.crc16Modbus 0 0xFFFFFFFF) (testState [] 0)) State.outputs =
    some { result := 0, status := 0x03, fcmd := 0x30000000FFFFFFFF } := by decide

theorem test_putb_last_offset : after (exec (.putb 255 0xFF) (testState [] 0)) (·.block.buf) = some [(255, 0xFF)] := by
  decide

theorem test_getb : after (exec (.getb 1) (testState [(1, 0x12)] 0)) State.outputs =
    some { result := 0x00000012, status := 0x10, fcmd := 0 } := by decide

theorem test_getb_out_of_range : after (exec (.getb 256) (testState [] 0)) State.outputs =
    some { result := 0, status := 0x03, fcmd := 0x4100010000000000 } := by decide

/-! ## Faults, their order, and steps -/

theorem test_illegal_before_index_error :
    after ((testState [] 0).present 0x1000010000011234) State.outputs =
      some { result := 0, status := 0x05, fcmd := 0x1000010000011234 } := by decide

theorem test_fault_keeps_result :
    after ((testState [] 0).present 0x3000010000000000) (fun s =>
      after (s.present 0x210000FF00000002) State.outputs) =
      some (some { result := 0x0000FFFF, status := 0x23, fcmd := 0x210000FF00000002 }) := by decide

theorem test_ignored_while_faulted :
    after ((testFaulted false).present 0x2000000000000000) (fun s => decide (s = testFaulted false)) = some true := by
  decide

theorem test_step_presents_word_at_pc :
    after (step (testProgram [0x40000002000000FF])) (fun s => (s.block.buf, s.driver.pc)) = some ([(2, 0xFF)], 1) := by
  decide

theorem test_placed_word_runs_after_reset :
    after (step (State.reset.withFetchWord 64 0x400000FE000000AA)) (·.block.buf) = some [(254, 0xAA)] := by decide

theorem test_reset_leaves_faulted_state :
    after (step (testFaulted true)) (fun s => (s.outputs, s.driver.rst)) =
      some ({ result := 0, status := 0, fcmd := 0 }, false) := by decide

/-! ## The assembler (30_encoding.md R60 to R62) -/

theorem test_assemble_text :
    assembleText Params.default "CRC8.GET -- read it\nWR16LE 0x10, 4660\n".toList =
      some [0x2100000000000000, 0x1000001000001234] := by decide

theorem test_assemble_puts :
    assembleLine Params.default ("PUTS 8, ".toList ++ [Char.ofNat 123] ++ "0x01, 2".toList ++ [Char.ofNat 125]) =
      some [.putb 8 1, .putb 9 2] := by decide

theorem test_assemble_rejects_wide_value : assemble Params.default .wr16le [0, 65536] = none := by decide

/-! ## Witnesses: for each statement with hypotheses, values that meet them, at the edges of its clauses -/

theorem test_witness_DecodedWordIsExact : decode 0x3000FFFFFFFFFFFF = .ok (.crc16Modbus 0xFFFF 0xFFFFFFFF) := by decide

theorem test_witness_DecoderAgreesWithOpcodeMap :
    ⟨.putb, 0x4000000000000000, 0xFFFF0000FFFFFF00⟩ ∈ opcodeMap ∧
      (0x40000002000000FF : Command) &&& 0xFFFF0000FFFFFF00 = 0x4000000000000000 := by decide

theorem test_witness_ReservedBitsAreChecked :
    legal Params.default 0x1000FFFF0000FFFF = true ∧ Command.op 0x1000FFFF0000FFFF = 0x10 ∧
    legal Params.default 0x41000000FFFFFFFF = false ∧ legal Params.default 0x4100FFFF00000000 = true ∧
    Command.op 0x4100FFFF00000000 = 0x41 ∧ legal Params.default 0x2000000000000000 = true ∧
    Command.op 0x2000000000000000 = 0x20 ∧ legal Params.default 0x40000000000000FF = true ∧
    Command.op 0x40000000000000FF = 0x40 := by decide

theorem test_witness_IllegalWordRaisesIllegalCommand :
    State.reset.block.status.fault = false ∧ legal State.reset.params 0x1900000000000000 = false ∧
      unassignedOp State.reset.params 0xFF = true ∧ unassignedOp State.reset.params 0x41 = false ∧
      unassignedOp State.reset.params 0x19 = true ∧ Command.op 0x1900000000000000 = 0x19 ∧
      State.reset.params.implRd16be = false := by decide

theorem test_witness_AssemblerNeverEmitsIllegalWord :
    assemble Params.default .putb [65535, 255] = some (.putb 0xFFFF 0xFF) ∧
      assemble Params.default .crc8Init [] = some .crc8Init ∧
      assembleText Params.default "GETB 3".toList = some [0x4100000300000000] := by decide

theorem test_witness_PutsExpandsToPutbs :
    ([255] ≠ [] → 65535 + [255].length ≤ 65536) ∧ (∀ b ∈ [255], b < 256) ∧
      (([] : List Nat) ≠ [] → 70000 + ([] : List Nat).length ≤ 65536) := by decide

/-- `PUTB 255, 0x0aF` with a comment, and a command of no operands: lines that the program text may hold. -/
theorem test_witness_AssemblerReadsProgramText :
    CommandText "PUTB 255, 0x0aF -- last".toList (.putb 255 0xAF) ∧
      Instr.wellFormed Params.default (.putb 255 0xAF) = true ∧ CommandText "CRC8.INIT".toList .crc8Init :=
  ⟨⟨" 255, 0x0aF".toList, " -- last".toList,
      ⟨"255".toList, "0x0aF".toList, .inl ⟨[2, 5, 5], by decide, by decide, by decide, by decide⟩,
        .inr ⟨"0aF".toList, by decide, [0, 10, 15], by decide, by decide, by decide, by decide⟩, by decide⟩,
      by decide, .inr ⟨" last".toList, by decide, by decide⟩⟩,
    by decide, ⟨[], [], rfl, by decide, .inl rfl⟩⟩

/-- Two bytes at 254 fit 256 bytes and at 255 do not: the clauses of the 16-bit commands and of `CRC8.GET`. -/
theorem test_witness_half_word_clauses :
    State.reset.block.status.fault = false ∧ (254 : Offset).toNat + 2 ≤ State.reset.params.bufBytes ∧
      State.reset.params.bufBytes < (255 : Offset).toNat + 2 := by decide

/-- Four bytes at 252 fit 256 bytes and at 253 do not: the clauses of the 32-bit commands. -/
theorem test_witness_word_clauses :
    State.reset.block.status.fault = false ∧ (252 : Offset).toNat + 4 ≤ State.reset.params.bufBytes ∧
      State.reset.params.bufBytes < (253 : Offset).toNat + 4 := by decide

/-- One byte at 255 fits 256 bytes and at 256 does not: the clauses of `PUTB` and `GETB`. -/
theorem test_witness_byte_clauses :
    State.reset.block.status.fault = false ∧ (255 : Offset).toNat < State.reset.params.bufBytes ∧
      State.reset.params.bufBytes ≤ (256 : Offset).toNat := by decide

theorem test_witness_Rd16beIsOptional :
    (testStateRd16be []).params.implRd16be = true ∧ (testStateRd16be []).block.status.fault = false ∧
      (254 : Offset).toNat + 2 ≤ (testStateRd16be []).params.bufBytes ∧
      (testStateRd16be []).params.bufBytes < (255 : Offset).toNat + 2 ∧
      State.reset.params.implRd16be = false ∧ State.reset.block.status.fault = false := by decide

theorem test_witness_CodecRoundTrip :
    (testStateRd16be []).block.status.fault = false ∧
      (testStateRd16be [(0, 0x34), (1, 0x12)]).block.status.fault = false ∧
      (testStateRd16be [(0, 0x34), (1, 0x12)]).params = (testStateRd16be []).params ∧
      after (exec (.wr16le 0 0x1234) (testStateRd16be [])) (fun t => (t.readByte 0, t.readByte 1)) =
        some ((testStateRd16be [(0, 0x34), (1, 0x12)]).readByte 0, (testStateRd16be [(0, 0x34), (1, 0x12)]).readByte 1) ∧
      after (exec (.wr16be 0 0x3412) (testStateRd16be [])) (fun t => (t.readByte 0, t.readByte 1)) =
        some ((testStateRd16be [(0, 0x34), (1, 0x12)]).readByte 0, (testStateRd16be [(0, 0x34), (1, 0x12)]).readByte 1) := by
  decide

theorem test_witness_CodecRoundTrip_words :
    after (exec (.wr32le 252 0x78563412) (testState [] 0)) (fun t => t.block.buf) =
        some (testState [(252, 0x12), (253, 0x34), (254, 0x56), (255, 0x78)] 0).block.buf ∧
      after (exec (.wr32be 252 0x12345678) (testState [] 0)) (fun t => t.block.buf) =
        some (testState [(252, 0x12), (253, 0x34), (254, 0x56), (255, 0x78)] 0).block.buf := by decide

theorem test_witness_CrossOrderReadSwapsBytes :
    State.reset.block.status.fault = false ∧ (254 : Offset).toNat + 2 ≤ State.reset.params.bufBytes ∧
    (testStateRd16be []).block.status.fault = false ∧ (testStateRd16be []).params.implRd16be = true ∧
      (254 : Offset).toNat + 2 ≤ (testStateRd16be []).params.bufBytes ∧
      (252 : Offset).toNat + 4 ≤ (testStateRd16be []).params.bufBytes := by decide

/-- An empty range at 256 fits and at 257 does not; 256 bytes at 0 fit and 257 do not: the clauses of the CRC commands. -/
theorem test_witness_range_clauses :
    State.reset.block.status.fault = false ∧
      (256 : Offset).toNat + (0 : Word).toNat ≤ State.reset.params.bufBytes ∧
      State.reset.params.bufBytes < (257 : Offset).toNat + (0 : Word).toNat ∧
      (0 : Offset).toNat + (256 : Word).toNat ≤ State.reset.params.bufBytes ∧
      State.reset.params.bufBytes < (0 : Offset).toNat + (257 : Word).toNat := by decide

theorem test_witness_Crc8EmptyUpdate :
    State.reset.block.status.fault = false ∧ (256 : Offset).toNat ≤ State.reset.params.bufBytes ∧
      State.reset.params.bufBytes < (257 : Offset).toNat := by decide

theorem test_witness_Crc8Streaming :
    (testState [(0, 1), (1, 2), (2, 3)] 0).block.status.fault = false ∧
      (1 : Offset).toNat = (0 : Offset).toNat + (1 : Word).toNat ∧
      (3 : Word).toNat = (1 : Word).toNat + (2 : Word).toNat ∧
      (0 : Offset).toNat + (3 : Word).toNat ≤ (testState [(0, 1), (1, 2), (2, 3)] 0).params.bufBytes ∧
      after (exec (.crc8Upd 0 1) (testState [(0, 1), (1, 2), (2, 3)] 0)) (·.block.crc8) =
        some (testState [(1, 2), (2, 3)] 0x07).block.crc8 ∧
      (testState [(1, 2), (2, 3)] 0x07).memRead 1 2 = (testState [(0, 1), (1, 2), (2, 3)] 0).memRead 1 2 := by
  decide +kernel

theorem test_witness_OnlyCrc8CommandsChangeCrc8 :
    after (step { testProgram [0x2100000000000001] with block := (testState [(0, 1)] 0).block }) (·.block.crc8) =
      some 0x07 := by decide +kernel

theorem test_witness_Crc16IsStateless :
    (testState [(0, 1)] 0).block.status.fault = false ∧ (testState [(255, 1)] 9).block.status.fault = false ∧
      (0 : Offset).toNat + (1 : Word).toNat ≤ (testState [(0, 1)] 0).params.bufBytes ∧
      (255 : Offset).toNat + (1 : Word).toNat ≤ (testState [(255, 1)] 9).params.bufBytes ∧
      (testState [(255, 1)] 9).memRead 255 1 = (testState [(0, 1)] 0).memRead 0 1 := by decide

theorem test_witness_ByteAccessAgreesWithCodec :
    (testStateRd16be []).block.status.fault = false ∧ (255 : Offset).toNat = (254 : Offset).toNat + 1 ∧
      (254 : Offset).toNat + 2 ≤ (testStateRd16be []).params.bufBytes ∧
      (testStateRd16be []).params.implRd16be = true ∧ (255 : Offset).toNat < (testStateRd16be []).params.bufBytes ∧
      (testStateRd16be [(255, 7)]).params = (testStateRd16be []).params ∧
      after (exec (.putb 255 7) (testStateRd16be [])) (fun t => t.readByte 255) =
        some ((testStateRd16be [(255, 7)]).readByte 255) := by decide

theorem test_witness_UnwrittenByteReadsAsFreeValue :
    (testState [(1, 2)] 0).block.status.fault = false ∧ (0 : Offset).toNat < (testState [(1, 2)] 0).params.bufBytes ∧
      ∀ c ∈ (testState [(1, 2)] 0).block.buf, c.1 ≠ (0 : Offset).toNat := by decide

/-- A word that completes, one that faults, and one presented while faulted: the clauses about `RESULT` and `FCMD`. -/
theorem test_witness_presented_words :
    after (State.reset.present 0x40000002000000FF) (·.block.status.fault) = some false ∧
      after (State.reset.present 0x4100010000000000) (·.block.status.fault) = some true ∧
      after ((testFaulted false).present 0x40000002000000FF) (·.block.status.fault) = some true ∧
      State.reset.block.status.fault = false ∧ (testFaulted false).block.status.fault = true := by decide

theorem test_witness_IndexErrorExactlyWhenRangeDoesNotFit :
    State.reset.block.status.fault = false ∧ Instr.wellFormed State.reset.params (.putb 255 0) = true ∧
      State.reset.params.bufBytes < (Instr.putb 256 0).fieldA.toNat + byteCount (.putb 256 0) ∧
      ¬ State.reset.params.bufBytes < (Instr.putb 255 0).fieldA.toNat + byteCount (.putb 255 0) := by decide

theorem test_witness_FaultedBlockIgnoresCommands :
    (testFaulted false).block.status.fault = true ∧ (testFaulted false).driver.rst = false ∧
      0 < (testFaulted false).resets ∧
      (testFaulted false).driver.prog[(testFaulted false).driver.pc]? = some 0 := by decide

theorem test_witness_frames :
    after (exec (.wr16le 254 1) State.reset) (·.driver.pc) = some 1 ∧
      after (exec (.wr16be 255 1) State.reset) (·.driver.pc) = some 0 ∧
      after (exec (.wr32le 252 1) State.reset) (·.driver.pc) = some 1 ∧
      after (exec (.putb 255 1) State.reset) (·.driver.pc) = some 1 ∧
      after (exec (.getb 0) State.reset) (·.driver.pc) = some 1 ∧
      after (exec (.crc16Modbus 256 0) State.reset) (·.driver.pc) = some 1 ∧
      after (exec .crc8Init State.reset) (·.driver.pc) = some 1 ∧
      after (exec (.crc8Upd 256 0) State.reset) (·.driver.pc) = some 1 := by decide

theorem test_witness_EffectDependsOnlyOnOperandsBufAndCrc8 :
    (testState [(0, 1)] 7).block.status.fault = false ∧ (testState [(0, 1), (9, 9)] 7).block.status.fault = false ∧
      (testState [(0, 1), (9, 9)] 7).params = (testState [(0, 1)] 7).params ∧
      (testState [(0, 1), (9, 9)] 7).block.crc8 = (testState [(0, 1)] 7).block.crc8 ∧
      (testState [(0, 1), (9, 9)] 7).memRead 0 (byteCount (.crc8Upd 0 1)) =
        (testState [(0, 1)] 7).memRead 0 (byteCount (.crc8Upd 0 1)) := by decide

theorem test_witness_StepRunsDecodedCommand :
    (testProgram [0x2000000000000000]).driver.rst = false ∧ 0 < (testProgram [0x2000000000000000]).resets ∧
      (testProgram [0x2000000000000000]).driver.prog[(testProgram [0x2000000000000000]).driver.pc]? =
        some 0x2000000000000000 ∧ decode 0x2000000000000000 = .ok .crc8Init := by decide

theorem test_witness_StepStopsOnlyOutsideTransactions :
    step State.reset = .fault .noCommand ∧
      step { testProgram [0] with resets := 0 } = .refused .neverReset ∧
      ((testFaulted true).driver.rst = true) ∧
      (testProgram [0]).driver.pc < (testProgram [0]).driver.prog.length ∧ 0 < (testProgram [0]).resets :=
  ⟨rfl, rfl, by decide, by decide, by decide⟩

/-- A step that completes, one that faults, and one that takes a reset. -/
theorem test_witness_steps :
    after (step (testProgram [0x2000000000000000])) (·.block.status.fault) = some false ∧
      after (step (testProgram [0])) (·.block.status.fault) = some true ∧
      (testProgram [0]).driver.rst = false ∧ (testFaulted true).driver.rst = true ∧
      (testFaulted true).block.status.fault = true ∧
      after (step (testFaulted true)) (·.block.status.fault) = some false := by decide

/-- A state of the invariant, not faulted, with two words still to present, and a step from it. -/
theorem test_witness_invariant :
    (testProgram [0x40000002000000FF, 0]).Inv ∧ (testProgram [0x40000002000000FF, 0]).driver.rst = false ∧
      (testProgram [0x40000002000000FF, 0]).block.status.fault = false ∧
      after (step (testProgram [0x40000002000000FF, 0])) (·.driver.pc) = some 1 :=
  ⟨⟨by decide, by decide, by decide, by decide, by decide, by decide, by decide, by decide, by decide⟩,
    by decide, by decide, by decide⟩

theorem test_witness_CanonicalMemoryIsUnique :
    Memory.wf [(1, 2), (3, 4)] = true ∧ Memory.wf [(3, 4), (1, 2)] = false ∧ Memory.wf [(1, 2), (1, 2)] = false := by
  decide
end

/-! # Reset and the faulted block (10_state.md R20, R22 to R24; 60_exceptions.md R127, R129) -/

namespace Sys2Proof.Machine

theorem step_reset {s : State} (h : s.driver.rst = true) : step s = .next s.takeReset := if_pos h

theorem State.illegal_faulted {s : State} (h : s.block.status.fault = true) (cmd : Command) :
    s.illegal cmd = .next s := if_pos h

/-- A faulted block ignores the presented word, legal or not. -/
theorem State.present_faulted {s : State} (h : s.block.status.fault = true) (w : Command) :
    s.present w = .next s := by
  cases hd : decode w with
  | ok i => rw [State.present_ok hd, exec_faulted h]
  | error e => rw [State.present_error hd, State.illegal_faulted h]

/-- A step from a faulted block takes a reset, or leaves the whole state as it is. -/
theorem step_cases_faulted {s t : State} (h : step s = .next t) (hf : s.block.status.fault = true) :
    (s.driver.rst = true ∧ t = s.takeReset) ∨ (s.driver.rst = false ∧ t = s) := by
  obtain hreset | ⟨hrst, -, w, -, hw⟩ := step_cases h
  · exact .inl hreset
  · rw [State.present_faulted hf] at hw
    cases hw
    exact .inr ⟨hrst, rfl⟩

@[simp] theorem State.takeReset_statusWord (s : State) : s.takeReset.block.status.word = 0 := by
  simp [Status.word, RType.code, Cause.code]

/-- Settles O52: the first half reads the registers off the state after reset; for the second, a step that takes no
reset leaves a faulted state as it is, so `FAULT` would still be set. -/
theorem resetWritesRegistersAndAloneClearsFault : Obligations.ResetWritesRegistersAndAloneClearsFault := by
  refine ⟨fun s hrst => ⟨s.takeReset, step_reset hrst, by simp⟩, fun s t hstep hf hclear => ?_⟩
  obtain ⟨hrst, -⟩ | ⟨-, rfl⟩ := step_cases_faulted hstep hf
  · exact hrst
  · exact absurd (hf.symm.trans hclear) (by decide)

end Sys2Proof.Machine

/-! # The opcode map, illegal words and the pseudo-instructions (30_encoding.md R52 to R55, R61, R62) -/

namespace Sys2Proof

/-! ## What a word that decodes looks like -/

theorem decode_eq_ok_iff {w : Command} {i : Instr} :
    decode w = .ok i ↔ w.op = i.opcode.byte ∧ w.rsv = 0 ∧ decodeOperands i.opcode w.a w.b = .ok i := by
  constructor
  · intro h
    unfold decode at h
    split at h
    · cases h
    · rename_i o ho
      split at h
      · rename_i hrsv
        obtain ⟨rfl, -, -⟩ := decodeOperands_fields h
        exact ⟨eq_byte_of_opcodeOfByte ho, hrsv, h⟩
      · cases h
  · rintro ⟨hop, hrsv, h⟩
    simp [decode, hop, opcodeOfByte_byte, hrsv, h]

theorem encode_eq_of_decode {w : Command} {i : Instr} (h : decode w = .ok i) : encode i = w := by
  obtain ⟨hop, hrsv, hops⟩ := decode_eq_ok_iff.1 h
  obtain ⟨-, ha, hb⟩ := decodeOperands_fields hops
  rw [encode, ha, hb, ← hop, ← hrsv, Command.pack_fields]

theorem Opcode.byte_inj {o o' : Opcode} : o.byte = o'.byte ↔ o = o' := by
  refine ⟨fun h => ?_, congrArg Opcode.byte⟩
  simpa [opcodeOfByte_byte] using congrArg opcodeOfByte h

/-! ## The bits that must be 0 (R52) -/

/-- The bits of `A` that a command needs to be 0: all of them where it has no offset. -/
def Opcode.zeroBitsA : Opcode → Offset
  | .crc8Init => 0xFFFF
  | _ => 0

/-- The bits of `B` that a command needs to be 0: those above its value, or all of them where it has none. -/
def Opcode.zeroBitsB : Opcode → Word
  | .wr16le | .wr16be => 0xFFFF0000
  | .wr32le | .wr32be | .crc8Upd | .crc16Modbus => 0
  | .putb => 0xFFFFFF00
  | .rd16le | .rd16be | .rd32le | .rd32be | .rdi16le | .crc8Init | .getb => 0xFFFFFFFF

/-- The bits from `k` up are 0 iff masking the bits below `k` away leaves nothing. -/
theorem extractLsb'_eq_zero_iff_and_mask {w : Nat} (b : BitVec w) (k n : Nat) (h : k + n = w) :
    b.extractLsb' k n = 0 ↔ b &&& (BitVec.allOnes w <<< k) = 0 := by
  constructor
  · intro hb
    apply BitVec.eq_of_getLsbD_eq
    intro i hi
    by_cases hk : i < k
    · simp [hk]
    · have hbit := congrArg (fun x : BitVec n => x.getLsbD (i - k)) hb
      simp only [BitVec.getLsbD_extractLsb', show k + (i - k) = i by omega, show i - k < n by omega] at hbit
      simp_all
  · intro hb
    apply BitVec.eq_of_getLsbD_eq
    intro i hi
    have hbit := congrArg (fun x : BitVec w => x.getLsbD (k + i)) hb
    simpa [hi, show k + i < w by omega] using hbit

theorem exists_ite_ok_iff {c : Prop} [Decidable c] {ε α : Type} {x : α} {e : ε} :
    (∃ y, (if c then Except.ok x else Except.error e) = Except.ok y) ↔ c := by
  by_cases h : c <;> simp [h]

/-- The operands are accepted iff every bit that must be 0 is 0. -/
theorem exists_decodeOperands_eq_ok_iff (o : Opcode) (a : Offset) (b : Word) :
    (∃ i, decodeOperands o a b = .ok i) ↔ a &&& o.zeroBitsA = 0 ∧ b &&& o.zeroBitsB = 0 := by
  have half : b.extractLsb' 16 16 = 0 ↔ b &&& 0xFFFF0000 = 0 := extractLsb'_eq_zero_iff_and_mask b 16 16 rfl
  have byte : b.extractLsb' 8 24 = 0 ↔ b &&& 0xFFFFFF00 = 0 := extractLsb'_eq_zero_iff_and_mask b 8 24 rfl
  have allA : a &&& 0xFFFF = a := BitVec.and_allOnes
  have allB : b &&& 0xFFFFFFFF = b := BitVec.and_allOnes
  cases o <;>
    simp only [decodeOperands, exists_ite_ok_iff, Opcode.zeroBitsA, Opcode.zeroBitsB, half, byte, allA, allB] <;>
    simp

/-! ## The rows of the opcode map (R53) -/

/-- The row of an opcode, from its `OP` value and the bits that must be 0. -/
def Opcode.row (o : Opcode) : OpcodeRow :=
  ⟨o, Command.pack o.byte 0 0 0, Command.pack 0xFF 0xFF o.zeroBitsA o.zeroBitsB⟩

theorem mem_opcodeMap_iff {r : OpcodeRow} : r ∈ opcodeMap ↔ r = r.opcode.row := by
  constructor
  · have all : ∀ r ∈ opcodeMap, r = r.opcode.row := by decide
    exact all r
  · intro h
    rw [h]
    cases r.opcode <;> decide

theorem Opcode.row_matches_iff (o : Opcode) (w : Command) :
    o.row.Matches w ↔ w.op = o.byte ∧ w.rsv = 0 ∧ w.a &&& o.zeroBitsA = 0 ∧ w.b &&& o.zeroBitsB = 0 := by
  have all (x : Byte) : x &&& 0xFF = x := BitVec.and_allOnes
  rw [OpcodeRow.Matches, Opcode.row, ← Command.pack_fields w, Command.pack_and, Command.pack_inj, all, all,
    Command.pack_fields]

theorem exists_decode_eq_ok_iff_row_matches (o : Opcode) (w : Command) :
    (∃ i, decode w = .ok i ∧ i.opcode = o) ↔ o.row.Matches w := by
  rw [Opcode.row_matches_iff, ← exists_decodeOperands_eq_ok_iff]
  constructor
  · rintro ⟨i, h, rfl⟩
    obtain ⟨hop, hrsv, hops⟩ := decode_eq_ok_iff.1 h
    exact ⟨hop, hrsv, i, hops⟩
  · rintro ⟨hop, hrsv, i, hops⟩
    obtain ⟨rfl, -, -⟩ := decodeOperands_fields hops
    exact ⟨i, decode_eq_ok_iff.2 ⟨hop, hrsv, hops⟩, rfl⟩

theorem Instr.wellFormed_iff {p : Params} {i : Instr} :
    i.wellFormed p = true ↔ (i.opcode = .rd16be → p.implRd16be = true) := by
  cases i <;> simp [Instr.wellFormed, Instr.opcode]

theorem legal_iff_decode {p : Params} {w : Command} :
    legal p w = true ↔ ∃ i, decode w = .ok i ∧ i.wellFormed p = true := by
  unfold legal
  cases decode w <;> simp

theorem legal_iff_row_matches {p : Params} {w : Command} :
    legal p w = true ↔ ∃ o : Opcode, (o = .rd16be → p.implRd16be = true) ∧ o.row.Matches w := by
  simp only [legal_iff_decode, Instr.wellFormed_iff, ← exists_decode_eq_ok_iff_row_matches]
  constructor
  · rintro ⟨i, h, himpl⟩
    exact ⟨i.opcode, himpl, i, h, rfl⟩
  · rintro ⟨_, himpl, i, h, rfl⟩
    exact ⟨i, h, himpl⟩

/-- Settles O3: every row is `Opcode.row` of its opcode, and a word matches that row iff it has the opcode's `OP`
value, a zero `RSV` and operands that `decodeOperands` accepts. -/
theorem decoderAgreesWithOpcodeMap : Obligations.DecoderAgreesWithOpcodeMap := by
  refine ⟨fun w o => ?_, fun w r r' hr hr' hw hw' => ?_, fun p w => ?_⟩
  · rw [exists_decode_eq_ok_iff_row_matches]
    constructor
    · exact fun h => ⟨o.row, mem_opcodeMap_iff.2 rfl, rfl, h⟩
    · rintro ⟨r, hr, rfl, h⟩
      rwa [mem_opcodeMap_iff.1 hr] at h
  · rw [mem_opcodeMap_iff] at hr hr'
    rw [hr] at hw
    rw [hr'] at hw'
    have hop := ((Opcode.row_matches_iff _ w).1 hw).1.symm.trans ((Opcode.row_matches_iff _ w).1 hw').1
    rw [hr, hr', Opcode.byte_inj.1 hop]
  · rw [legal_iff_row_matches]
    constructor
    · rintro ⟨o, himpl, h⟩
      exact ⟨o.row, mem_opcodeMap_iff.2 rfl, himpl, h⟩
    · rintro ⟨r, hr, himpl, h⟩
      rw [mem_opcodeMap_iff.1 hr] at h
      exact ⟨r.opcode, himpl, h⟩

/-! ## Legal words (R55) -/

theorem exists_encode_of_legal {p : Params} {w : Command} (h : legal p w = true) :
    ∃ i, encode i = w ∧ i.wellFormed p = true := by
  obtain ⟨i, hi, hwf⟩ := legal_iff_decode.1 h
  exact ⟨i, encode_eq_of_decode hi, hwf⟩

/-- Settles O4: a legal word is the word of a command, whose `B` is its value with zeros above it. -/
theorem reservedBitsAreChecked : Obligations.ReservedBitsAreChecked := by
  intro p w h
  obtain ⟨i, rfl, -⟩ := exists_encode_of_legal h
  obtain ⟨hop, hrsv, ha, hb⟩ := Laws.Encoding.of_pack i
  rw [hop, ha, hb]
  refine ⟨hrsv, ?_⟩
  cases i with
  | wr16le a v => simp [Instr.opcode, Opcode.byte, Instr.fieldB, extract_high_of_half]
  | wr16be a v => simp [Instr.opcode, Opcode.byte, Instr.fieldB, extract_high_of_half]
  | putb a b => simp [Instr.opcode, Opcode.byte, Instr.fieldB, extract_high_of_byte]
  | _ => simp [Instr.opcode, Opcode.byte, Instr.fieldA, Instr.fieldB]

/-! ## Unassigned `OP` values (R54) -/

open Machine

theorem unassignedOp_of_opcodeOfByte_eq_none (p : Params) {b : Byte} (h : opcodeOfByte b = none) :
    unassignedOp p b.toNat = true := by
  unfold opcodeOfByte at h
  split at h
  case h_15 =>
    simp only [imp_false] at *
    simp only [unassignedOp, Bool.or_eq_true, Bool.and_eq_true, decide_eq_true_eq]
    omega
  all_goals cases h

theorem unassignedOp_byte_iff (p : Params) (o : Opcode) :
    unassignedOp p o.byte.toNat = true ↔ o = .rd16be ∧ p.implRd16be = false := by
  cases o <;> simp [unassignedOp, Opcode.byte]

/-- Every opcode that the block has is the `OP` of a legal word, the one with 0 in all other fields. -/
theorem legal_pack_byte {p : Params} {o : Opcode} (h : o = .rd16be → p.implRd16be = true) :
    legal p (Command.pack o.byte 0 0 0) = true := by
  refine legal_iff_row_matches.2 ⟨o, h, (o.row_matches_iff _).2 ?_⟩
  simp [Command.op_pack, Command.rsv_pack, Command.a_pack, Command.b_pack]

theorem legal_eq_false_of_unassignedOp {p : Params} {w : Command} (h : unassignedOp p w.op.toNat = true) :
    legal p w = false := by
  rw [Bool.eq_false_iff]
  intro hl
  obtain ⟨o, himpl, hm⟩ := legal_iff_row_matches.1 hl
  rw [((o.row_matches_iff w).1 hm).1, unassignedOp_byte_iff] at h
  simp [himpl h.1] at h

theorem unassignedOp_iff_forall_not_legal (p : Params) (b : Byte) :
    unassignedOp p b.toNat = true ↔ ∀ w : Command, w.op = b → legal p w = false := by
  constructor
  · rintro h w rfl
    exact legal_eq_false_of_unassignedOp h
  · intro h
    cases hb : opcodeOfByte b with
    | none => exact unassignedOp_of_opcodeOfByte_eq_none p hb
    | some o =>
      obtain rfl := eq_byte_of_opcodeOfByte hb
      by_contra hn
      rw [unassignedOp_byte_iff] at hn
      have hl := legal_pack_byte (p := p) (o := o) (by simpa using hn)
      simp [h _ (Command.op_pack _ _ _ _)] at hl

/-- Which `OP` values are unassigned depends on no parameter but `IMPL_RD16BE`. -/
theorem length_filter_unassignedOp (p : Params) :
    ((List.range 256).filter (unassignedOp p)).length = if p.implRd16be = true then 242 else 243 := by
  obtain ⟨n, impl⟩ := p
  cases impl
  · exact (by decide +kernel : ((List.range 256).filter (unassignedOp ⟨0, false⟩)).length = 243)
  · exact (by decide +kernel : ((List.range 256).filter (unassignedOp ⟨0, true⟩)).length = 242)

end Sys2Proof

namespace Sys2Proof.Machine

theorem State.illegal_notFaulted {s : State} (h : s.block.status.fault = false) (cmd : Command) :
    s.illegal cmd = .next (s.raise .illegalCommand cmd) := if_neg (by simp [h])

theorem State.present_of_not_legal {s : State} {w : Command} (hf : s.block.status.fault = false)
    (h : legal s.params w = false) : s.present w = .next (s.raise .illegalCommand w) := by
  cases hd : decode w with
  | error e => rw [State.present_error hd, State.illegal_notFaulted hf]
  | ok i =>
    have hwf : i.wellFormed s.params = false := by simpa [legal, hd] using h
    rw [State.present_ok hd, exec_absent hf hwf, encode_eq_of_decode hd]

/-- Settles O5: an illegal word is one that does not decode, or that decodes to a command the block has not; both are
fault entry with the word. -/
theorem illegalWordRaisesIllegalCommand : Obligations.IllegalWordRaisesIllegalCommand := by
  refine ⟨fun s w hf h => ⟨_, State.present_of_not_legal hf h, State.faulted_raise _ _ _⟩, fun p => ⟨?_, ?_⟩,
    unassignedOp_iff_forall_not_legal, fun p w hop himpl => ?_, length_filter_unassignedOp⟩
  · exact legal_eq_false_of_unassignedOp rfl
  · exact legal_eq_false_of_unassignedOp (by simp [Command.op, unassignedOp])
  · exact legal_eq_false_of_unassignedOp (by simp [hop, unassignedOp, himpl])

/-! ## Pseudo-instructions (R61, R62) -/

/-- Settles O8: an empty range fits `BUF` whatever its size, and updating `CRC8` by no bytes keeps it. -/
theorem crc8GetReadsAccumulator : Obligations.Crc8GetReadsAccumulator := by
  refine ⟨by decide, rfl, fun s hf => ⟨s.crc8Update 0 0, ?_, s.returned_crc8Update 0 0, rfl, rfl⟩⟩
  exact exec_completes (i := crc8Get) hf rfl fun _ => Nat.zero_le _

theorem assembleForm_putb {a b : Nat} (ha : a < 65536) (hb : b < 256) :
    assembleForm .putb [a, b] = some (.putb (BitVec.ofNat 16 a) (BitVec.ofNat 8 b)) :=
  assembleForm_eq_some.2 ⟨rfl, by simp [operandNumbers, Nat.mod_eq_of_lt, ha, hb]⟩

/-- Settles O9, by induction on the bytes: the first is one `PUTB`, and the rest start one offset later. -/
theorem putsExpandsToPutbs : Obligations.PutsExpandsToPutbs := by
  intro a bs
  induction bs generalizing a with
  | nil => exact fun _ _ => rfl
  | cons b bs ih =>
    intro hfits hbytes
    have hlen : a + (bs.length + 1) ≤ 65536 := hfits (List.cons_ne_nil b bs)
    have hrest := ih (a + 1) (fun _ => by omega) fun c hc => hbytes c (List.mem_cons_of_mem b hc)
    rw [assemblePuts, assembleForm_putb (by omega) (hbytes b List.mem_cons_self), hrest, List.mapIdx_cons]
    simp [Nat.add_assoc, Nat.add_comm 1]

end Sys2Proof.Machine

/-! # The ByteCodec commands (40_bytecodec.md R70 to R82) -/

namespace Sys2Proof.Machine

/-! ## The template of a codec command (R70) -/

section Template

variable {i : Instr} {s : State}

/-- A command whose range does not fit `BUF` is fault entry and nothing else. -/
theorem exec_indexError (hf : s.block.status.fault = false) (hw : i.wellFormed s.params = true) (hi : i ≠ .crc8Init)
    (hr : s.params.bufBytes < i.fieldA.toNat + byteCount i) :
    ∃ t, exec i s = .next t ∧ s.Faulted t .indexError (encode i) :=
  ⟨_, exec_outOfRange hf hw hi (Nat.not_le.2 hr), State.faulted_raise _ _ _⟩

variable (hf : s.block.status.fault = false) (hw : i.wellFormed s.params = true)
  (hr : s.InRange i.fieldA.toNat (byteCount i))
include hf hw hr

/-- A command that completes by storing two bytes stores them at its offset, in order, and no other. -/
theorem exec_storesTwo {x y : Byte} (hc : completion i s = (s.memWrite i.fieldA.toNat [x, y]).finishNothing) :
    ∃ t, exec i s = .next t ∧ s.Returned t 0 .none ∧ t.block.crc8 = s.block.crc8 ∧
      t.readByte i.fieldA.toNat = x ∧ t.readByte (i.fieldA.toNat + 1) = y ∧
      s.SameBytesOutside t i.fieldA.toNat (byteCount i) := by
  have hout := completion_sameBytesOutside i s
  have hexec := exec_completes hf hw fun _ => hr
  have hbyte := readByte_stored s i.fieldA.toNat [x, y]
  rw [hc] at hout hexec
  exact ⟨_, hexec, s.returned_memWrite _ _, rfl, hbyte 0 (by simp), hbyte 1 (by simp), hout⟩

/-- A command that completes by storing four bytes stores them at its offset, in order, and no other. -/
theorem exec_storesFour {x y z w : Byte}
    (hc : completion i s = (s.memWrite i.fieldA.toNat [x, y, z, w]).finishNothing) :
    ∃ t, exec i s = .next t ∧ s.Returned t 0 .none ∧ t.block.crc8 = s.block.crc8 ∧
      t.readByte i.fieldA.toNat = x ∧ t.readByte (i.fieldA.toNat + 1) = y ∧
      t.readByte (i.fieldA.toNat + 2) = z ∧ t.readByte (i.fieldA.toNat + 3) = w ∧
      s.SameBytesOutside t i.fieldA.toNat (byteCount i) := by
  have hout := completion_sameBytesOutside i s
  have hexec := exec_completes hf hw fun _ => hr
  have hbyte := readByte_stored s i.fieldA.toNat [x, y, z, w]
  rw [hc] at hout hexec
  exact ⟨_, hexec, s.returned_memWrite _ _, rfl, hbyte 0 (by simp), hbyte 1 (by simp), hbyte 2 (by simp),
    hbyte 3 (by simp), hout⟩

/-- A command that completes by returning a value of `BUF` leaves `BUF` and `CRC8` alone. -/
theorem exec_loads {v : Word} {ty : RType} {x : Int} (hc : completion i s = s.finish v ty)
    (hx : resultValue v ty = some x) :
    ∃ t, exec i s = .next t ∧ s.Returned t v ty ∧ t.value = some x ∧
      t.block.crc8 = s.block.crc8 ∧ t.block.buf = s.block.buf :=
  ⟨_, hc ▸ exec_completes hf hw fun _ => hr, s.returned_finish v ty, hx, rfl, rfl⟩

/-- The host reads the value off the state in which a read completes. -/
theorem exec_loads_value {v : Word} {ty : RType} {x : Int} (hc : completion i s = s.finish v ty)
    (hx : resultValue v ty = some x) : ∃ t, exec i s = .next t ∧ t.value = some x := by
  obtain ⟨t, ht, -, hv, -⟩ := exec_loads hf hw hr hc hx
  exact ⟨t, ht, hv⟩

end Template

/-! ## The returned value (10_state.md R14; 40_bytecodec.md R71) -/

theorem resultValue_u16 (h : Half) : resultValue (zextHalf h) .u16 = some (h.toNat : Int) := by
  rw [resultValue, extract_zextHalf]

theorem resultValue_s16 (h : Half) : resultValue (zextHalf h) .s16 = some h.toInt := by
  rw [resultValue, extract_zextHalf]

/-- The sign of a 16-bit integer is bit 7 of its most significant byte (R77). -/
theorem toInt_two_bytes (x y : Byte) :
    (x ++ y : Half).toInt = if x.getLsbD 7 = false then (y.toNat + 256 * x.toNat : Int)
      else (y.toNat + 256 * x.toNat : Int) - 65536 := by
  have hmsb : (x ++ y : Half).msb = x.getLsbD 7 := by
    rw [BitVec.msb_append, if_neg (by decide), BitVec.msb_eq_getLsbD_last]
  rw [BitVec.toInt_eq_msb_cond, hmsb, toNat_two_bytes]
  cases x.getLsbD 7 <;> simp <;> omega

/-! ## Writes (R72 to R75) -/

/-- Settles O10: the two stored bytes are those of `bytesLe16`, least significant first. -/
theorem wr16leStoresLeastSignificantFirst : Obligations.Wr16leStoresLeastSignificantFirst :=
  fun _ a v => ⟨rfl, fun hf hr => exec_storesTwo (i := .wr16le a v) hf rfl hr rfl,
    fun hf hr => exec_indexError hf rfl nofun hr⟩

/-- Settles O11: the two stored bytes are those of `bytesBe16`, most significant first. -/
theorem wr16beStoresMostSignificantFirst : Obligations.Wr16beStoresMostSignificantFirst :=
  fun _ a v => ⟨rfl, fun hf hr => exec_storesTwo (i := .wr16be a v) hf rfl hr rfl,
    fun hf hr => exec_indexError hf rfl nofun hr⟩

/-- Settles O12: the four stored bytes are those of `bytesLe32`, and the range is checked whole before any is stored. -/
theorem wr32leStoresLeastSignificantFirst : Obligations.Wr32leStoresLeastSignificantFirst :=
  fun _ a v => ⟨rfl, fun hf hr => exec_storesFour (i := .wr32le a v) hf rfl hr rfl,
    fun hf hr => exec_indexError hf rfl nofun hr⟩

/-- Settles O13: the four stored bytes are those of `bytesBe32`, for every value and offset. -/
theorem wr32beStoresMostSignificantFirst : Obligations.Wr32beStoresMostSignificantFirst :=
  fun _ a v => ⟨rfl, fun hf hr => exec_storesFour (i := .wr32be a v) hf rfl hr rfl,
    fun hf hr => exec_indexError hf rfl nofun hr⟩

/-! ## Reads (R76 to R80) -/

/-- Settles O14: two bytes put together are the lower plus 256 times the upper. -/
theorem rd16leReturnsUnsignedHalf : Obligations.Rd16leReturnsUnsignedHalf := by
  refine fun s a => ⟨rfl,
    fun hf hr => exec_loads (i := .rd16le a) hf rfl hr rfl ((resultValue_u16 _).trans (congrArg some ?_)),
    fun hf hr => exec_indexError hf rfl nofun hr⟩
  rw [toNat_two_bytes]
  omega

/-- Settles O15: the raw bits are those of `RD16LE`, and the tag S16 alone makes the value signed. -/
theorem rdi16leReturnsSignedHalf : Obligations.Rdi16leReturnsSignedHalf :=
  fun _ a => ⟨rfl,
    fun hf hr => exec_loads (i := .rdi16le a) hf rfl hr rfl
      ((resultValue_s16 _).trans (congrArg some (toInt_two_bytes _ _))),
    fun hf hr => exec_indexError hf rfl nofun hr⟩

/-- Settles O16: without the option the command is absent, which is checked before its range. -/
theorem rd16beIsOptional : Obligations.Rd16beIsOptional := by
  refine fun s a => ⟨rfl,
    fun himpl hf hr => exec_loads (i := .rd16be a) hf himpl hr rfl ((resultValue_u16 _).trans (congrArg some ?_)),
    fun himpl hf hr => exec_indexError hf himpl nofun hr,
    fun himpl hf => ⟨_, exec_absent hf himpl, State.faulted_raise _ _ _⟩⟩
  rw [toNat_two_bytes]
  omega

/-- Settles O17: four bytes put together are their sum by weight. -/
theorem rd32leReturnsWord : Obligations.Rd32leReturnsWord := by
  refine fun s a => ⟨rfl, fun hf hr => exec_loads (i := .rd32le a) hf rfl hr rfl (congrArg some ?_),
    fun hf hr => exec_indexError hf rfl nofun hr⟩
  rw [toNat_four_bytes]
  omega

/-- Settles O18: as `RD32LE`, with the weights falling along the range. -/
theorem rd32beReturnsWord : Obligations.Rd32beReturnsWord := by
  refine fun s a => ⟨rfl, fun hf hr => exec_loads (i := .rd32be a) hf rfl hr rfl (congrArg some ?_),
    fun hf hr => exec_indexError hf rfl nofun hr⟩
  rw [toNat_four_bytes]
  omega

/-! ## A write and a later read in the same order (R81) -/

section ReadBack

variable {s : State} {a : Nat}

theorem State.readLe16_of_bytes {v : Half} (h0 : s.readByte a = v.extractLsb' 0 8)
    (h1 : s.readByte (a + 1) = v.extractLsb' 8 8) : s.readLe16 a = v := by
  rw [State.readLe16, h0, h1, half_of_bytes]

theorem State.readBe16_of_bytes {v : Half} (h0 : s.readByte a = v.extractLsb' 8 8)
    (h1 : s.readByte (a + 1) = v.extractLsb' 0 8) : s.readBe16 a = v := by
  rw [State.readBe16, h0, h1, half_of_bytes]

theorem State.readLe32_of_bytes {v : Word} (h0 : s.readByte a = v.extractLsb' 0 8)
    (h1 : s.readByte (a + 1) = v.extractLsb' 8 8) (h2 : s.readByte (a + 2) = v.extractLsb' 16 8)
    (h3 : s.readByte (a + 3) = v.extractLsb' 24 8) : s.readLe32 a = v := by
  rw [State.readLe32, h0, h1, h2, h3, word_of_bytes]

theorem State.readBe32_of_bytes {v : Word} (h0 : s.readByte a = v.extractLsb' 24 8)
    (h1 : s.readByte (a + 1) = v.extractLsb' 16 8) (h2 : s.readByte (a + 2) = v.extractLsb' 8 8)
    (h3 : s.readByte (a + 3) = v.extractLsb' 0 8) : s.readBe32 a = v := by
  rw [State.readBe32, h0, h1, h2, h3, word_of_bytes]

end ReadBack

/-- Settles O19: the read puts the bytes together that the write took the value apart into. -/
theorem codecRoundTrip : Obligations.CodecRoundTrip := by
  refine fun s u a hfs hfu hp => ⟨fun v hr => ⟨?_, ?_⟩, fun v hr => ⟨?_, ?_⟩⟩ <;> have hru := hp ▸ hr
  · obtain ⟨t, ht, -, -, h0, h1, -⟩ := (wr16leStoresLeastSignificantFirst s a v).2.1 hfs hr
    refine ⟨t, ht, fun hu0 hu1 => ?_⟩
    have hread : u.readLe16 a.toNat = v := State.readLe16_of_bytes (hu0.trans h0) (hu1.trans h1)
    exact ⟨exec_loads_value (i := .rd16le a) hfu rfl hru rfl (hread ▸ resultValue_u16 _),
      exec_loads_value (i := .rdi16le a) hfu rfl hru rfl (hread ▸ resultValue_s16 _)⟩
  · obtain ⟨t, ht, -, -, h0, h1, -⟩ := (wr16beStoresMostSignificantFirst s a v).2.1 hfs hr
    refine ⟨t, ht, fun himpl hu0 hu1 => ?_⟩
    have hread : u.readBe16 a.toNat = v := State.readBe16_of_bytes (hu0.trans h0) (hu1.trans h1)
    exact exec_loads_value (i := .rd16be a) hfu (hp ▸ himpl) hru rfl (hread ▸ resultValue_u16 _)
  · obtain ⟨t, ht, -, -, h0, h1, h2, h3, -⟩ := (wr32leStoresLeastSignificantFirst s a v).2.1 hfs hr
    refine ⟨t, ht, fun hu => ?_⟩
    have hread : u.readLe32 a.toNat = v := State.readLe32_of_bytes ((hu 0 (by decide)).trans h0)
      ((hu 1 (by decide)).trans h1) ((hu 2 (by decide)).trans h2) ((hu 3 (by decide)).trans h3)
    exact exec_loads_value (i := .rd32le a) hfu rfl hru rfl (by rw [hread, resultValue])
  · obtain ⟨t, ht, -, -, h0, h1, h2, h3, -⟩ := (wr32beStoresMostSignificantFirst s a v).2.1 hfs hr
    refine ⟨t, ht, fun hu => ?_⟩
    have hread : u.readBe32 a.toNat = v := State.readBe32_of_bytes ((hu 0 (by decide)).trans h0)
      ((hu 1 (by decide)).trans h1) ((hu 2 (by decide)).trans h2) ((hu 3 (by decide)).trans h3)
    exact exec_loads_value (i := .rd32be a) hfu rfl hru rfl (by rw [hread, resultValue])

/-! ## A write and a read in the other order (R82) -/

/-- The two bytes of a 16-bit integer exchanged. -/
def swapHalf (v : Half) : Half := v.extractLsb' 0 8 ++ v.extractLsb' 8 8

/-- The four bytes of a 32-bit integer in the opposite order. -/
def swapWord (v : Word) : Word :=
  v.extractLsb' 0 8 ++ v.extractLsb' 8 8 ++ v.extractLsb' 16 8 ++ v.extractLsb' 24 8

theorem swapHalf_append (x y : Byte) : swapHalf (x ++ y) = y ++ x := by
  rw [swapHalf, BitVec.extractLsb'_append_eq_right, BitVec.extractLsb'_append_eq_left]

theorem swapWord_append (x y z w : Byte) : swapWord (x ++ y ++ z ++ w) = w ++ z ++ y ++ x := by
  have h0 : (x ++ y ++ z ++ w : Word).extractLsb' 0 8 = w := BitVec.extractLsb'_append_eq_right
  have h1 : (x ++ y ++ z ++ w : Word).extractLsb' 8 8 = z :=
    (BitVec.extractLsb'_append_eq_of_le (by decide)).trans BitVec.extractLsb'_append_eq_right
  have h2 : (x ++ y ++ z ++ w : Word).extractLsb' 16 8 = y :=
    (BitVec.extractLsb'_append_eq_of_le (by decide)).trans <|
      (BitVec.extractLsb'_append_eq_of_le (by decide)).trans BitVec.extractLsb'_append_eq_right
  have h3 : (x ++ y ++ z ++ w : Word).extractLsb' 24 8 = x :=
    (BitVec.extractLsb'_append_eq_of_le (by decide)).trans <|
      (BitVec.extractLsb'_append_eq_of_le (by decide)).trans BitVec.extractLsb'_append_eq_left
  rw [swapWord, h0, h1, h2, h3]

theorem swapHalf_swapHalf (v : Half) : swapHalf (swapHalf v) = v :=
  (swapHalf_append _ _).trans (half_of_bytes v)

theorem swapWord_swapWord (v : Word) : swapWord (swapWord v) = v :=
  (swapWord_append _ _ _ _).trans (word_of_bytes v)

/-- Settles O20: the read puts the bytes that the write stored together in the opposite order. -/
theorem crossOrderReadSwapsBytes : Obligations.CrossOrderReadSwapsBytes := by
  refine fun s a hf => ⟨fun v hr => ⟨swapHalf v, rfl, (swapHalf_swapHalf v).symm, fun himpl => ?_, ?_⟩,
    fun v hr => ⟨swapWord v, rfl, (swapWord_swapWord v).symm, ?_, ?_⟩⟩
  · obtain ⟨t, ht, hret, -, h0, h1, -⟩ := (wr16leStoresLeastSignificantFirst s a v).2.1 hf hr
    obtain ⟨r, hr, hresult, -⟩ := (rd16beIsOptional t a).2.1 (hret.params ▸ himpl) (hret.fault.trans hf)
      (hret.params ▸ hr)
    exact ⟨t, r, ht, hr, by rw [hresult.result, h0, h1, swapHalf]⟩
  · obtain ⟨t, ht, hret, -, h0, h1, -⟩ := (wr16beStoresMostSignificantFirst s a v).2.1 hf hr
    obtain ⟨r, hr, hresult, -⟩ := (rd16leReturnsUnsignedHalf t a).2.1 (hret.fault.trans hf) (hret.params ▸ hr)
    exact ⟨t, r, ht, hr, by rw [hresult.result, h0, h1, swapHalf]⟩
  · obtain ⟨t, ht, hret, -, h0, h1, h2, h3, -⟩ := (wr32leStoresLeastSignificantFirst s a v).2.1 hf hr
    obtain ⟨r, hr, hresult, -⟩ := (rd32beReturnsWord t a).2.1 (hret.fault.trans hf) (hret.params ▸ hr)
    exact ⟨t, r, ht, hr, by rw [hresult.result, h0, h1, h2, h3, swapWord]⟩
  · obtain ⟨t, ht, hret, -, h0, h1, h2, h3, -⟩ := (wr32beStoresMostSignificantFirst s a v).2.1 hf hr
    obtain ⟨r, hr, hresult, -⟩ := (rd32leReturnsWord t a).2.1 (hret.fault.trans hf) (hret.params ▸ hr)
    exact ⟨t, r, ht, hr, by rw [hresult.result, h0, h1, h2, h3, swapWord]⟩

end Sys2Proof.Machine

/-! # CRC-8 (41_crc8.md R90 to R97) -/

namespace Sys2Proof.Machine

/-! ## The register and the bytes it absorbs (R90, R91) -/

/-- One iteration more is one more shift of the value before it. -/
theorem crc8Shift_iterate_succ (t : Byte) (k : Nat) :
    crc8Shift^[k + 1] t = if (crc8Shift^[k] t).getLsbD 7 = true then (crc8Shift^[k] t <<< 1) ^^^ 0x07
      else crc8Shift^[k] t <<< 1 := by
  rw [Function.iterate_succ_apply', crc8Shift]

theorem crc8Bytes_append (c : Byte) (xs ys : List Byte) :
    crc8Bytes c (xs ++ ys) = crc8Bytes (crc8Bytes c xs) ys := List.foldl_append

/-- The register that absorbs its own value starts its eight shifts at zero, and a shift keeps zero. -/
theorem crc8Byte_self (c : Byte) : crc8Byte c c = 0 := by
  rw [crc8Byte, BitVec.xor_self]
  decide

/-- Settles O21: the sequence is the shift iterated from `c ^ b`. -/
theorem crc8ByteShiftsEightTimes : Obligations.Crc8ByteShiftsEightTimes :=
  ⟨fun c b => ⟨fun k => crc8Shift^[k] (c ^^^ b), rfl, fun k _ => crc8Shift_iterate_succ (c ^^^ b) k, rfl⟩, by decide⟩

/-- Settles O28: after the message the register is its CRC, and absorbing that leaves zero. -/
theorem crc8Residue : Obligations.Crc8Residue :=
  fun m => (crc8Bytes_append 0 m [crc8Bytes 0 m]).trans (crc8Byte_self (crc8Bytes 0 m))

/-! ## The two commands on a block that is not faulted (R92, R93) -/

section Commands

variable {s : State} (hf : s.block.status.fault = false)
include hf

theorem exec_crc8Init_completes : exec .crc8Init s = .next (s.setCrc8 0).finishNothing :=
  exec_completes hf rfl fun h => absurd rfl h

theorem exec_crc8Upd_completes {a : Offset} {n : Word} (hr : s.InRange a.toNat n.toNat) :
    exec (.crc8Upd a n) s = .next (s.crc8Update a.toNat n.toNat) :=
  exec_completes hf rfl fun _ => hr

/-- An empty update is an absorption of no bytes, so the register stays and is returned (R95). -/
theorem exec_crc8Upd_empty {a : Offset} (ha : a.toNat ≤ s.params.bufBytes) :
    ∃ t, exec (.crc8Upd a 0) s = .next t ∧ s.Returned t (s.block.crc8.setWidth 32) .u8 ∧
      t.block.crc8 = s.block.crc8 ∧ t.block.buf = s.block.buf :=
  ⟨_, exec_crc8Upd_completes hf ha, s.returned_crc8Update a.toNat 0, rfl, rfl⟩

/-- An empty update of a register at zero returns 0 (R95). -/
theorem exec_crc8Upd_empty_of_crc8_zero {a : Offset} (ha : a.toNat ≤ s.params.bufBytes) (hz : s.block.crc8 = 0) :
    ∃ t, exec (.crc8Upd a 0) s = .next t ∧ t.block.result = 0 := by
  obtain ⟨t, ht, hret, -⟩ := exec_crc8Upd_empty hf ha
  exact ⟨t, ht, by rw [hret.result, hz]; rfl⟩

end Commands

/-- Settles O23: the command has no range to check, and writes `CRC8` and what every return writes. -/
theorem crc8InitClearsAccumulator : Obligations.Crc8InitClearsAccumulator :=
  ⟨by decide, fun s hf => ⟨_, exec_crc8Init_completes hf, returned_completion .crc8Init s, rfl, rfl⟩⟩

/-- Settles O24: `MemRead` of the range is the list of its bytes in ascending order. -/
theorem crc8UpdAbsorbsRange : Obligations.Crc8UpdAbsorbsRange := by
  refine fun s a n => ⟨rfl, fun hf hr => ?_, fun hf hr => exec_indexError hf rfl nofun hr⟩
  refine ⟨_, exec_crc8Upd_completes hf hr, ?_, s.returned_crc8Update a.toNat n.toNat, rfl⟩
  rw [State.crc8Update_crc8, State.memRead_eq_map]

/-- Settles O26: after `CRC8.INIT` and after reset the register that the empty update returns is zero. -/
theorem crc8EmptyUpdate : Obligations.Crc8EmptyUpdate := by
  refine fun s a hf => ⟨exec_crc8Upd_empty hf, fun ha => ?_, fun ha => ?_, fun ha => exec_indexError hf rfl nofun ha⟩
  · obtain ⟨t, ht⟩ := exec_crc8Upd_empty_of_crc8_zero (s := (s.setCrc8 0).finishNothing) hf ha rfl
    exact ⟨_, t, exec_crc8Init_completes hf, ht⟩
  · exact exec_crc8Upd_empty_of_crc8_zero (s := s.takeReset) rfl ha rfl

/-! ## A range in two parts (R94) -/

/-- Absorbing the second part, wherever its bytes are read from again, takes the register of the first part to that
of the whole range. -/
theorem crc8Bytes_memRead_add {s u : State} {addr n m : Nat}
    (hu : ∀ k, k < m → u.readByte (addr + n + k) = s.readByte (addr + n + k)) (c : Byte) :
    crc8Bytes (crc8Bytes c (s.memRead addr n)) (u.memRead (addr + n) m) = crc8Bytes c (s.memRead addr (n + m)) := by
  have hread : u.memRead (addr + n) m = s.memRead (addr + n) m := by
    refine State.memRead_congr m _ fun i hi hj => ?_
    obtain ⟨k, rfl⟩ := Nat.exists_eq_add_of_le hi
    exact hu k (by omega)
  rw [hread, State.memRead_add, crc8Bytes_append]

/-- Settles O25: the bytes consumed by the two updates are those of the whole range, in the same order. -/
theorem crc8Streaming : Obligations.Crc8Streaming := by
  refine ⟨crc8Bytes_append, fun s a a₂ n n₁ n₂ hf ha₂ hn hr => ?_⟩
  have hr₁ : s.InRange a.toNat n₁.toNat := by omega
  refine ⟨_, _, exec_crc8Upd_completes hf hr₁, exec_crc8Upd_completes hf hr, fun u hfu hp hc hbytes => ?_⟩
  have hr₂ : u.InRange a₂.toNat n₂.toNat := by
    rw [State.InRange, hp]
    omega
  have hcrc : (u.crc8Update a₂.toNat n₂.toNat).block.crc8 = (s.crc8Update a.toNat n.toNat).block.crc8 := by
    rw [ha₂] at hbytes ⊢
    rw [State.crc8Update_crc8, hc, State.crc8Update_crc8, State.crc8Update_crc8, hn]
    exact crc8Bytes_memRead_add hbytes s.block.crc8
  exact ⟨_, exec_crc8Upd_completes hfu hr₂, hcrc, congrArg zextByte hcrc⟩

/-! ## What changes the register (R96) -/

/-- A presented command that changes `CRC8` is one of the two CRC-8 commands, and it completed. -/
theorem exec_changes_crc8 {i : Instr} {s t : State} (h : exec i s = .next t) (hne : t.block.crc8 ≠ s.block.crc8) :
    t.block.status.fault = false ∧ (i = .crc8Init ∨ ∃ a n, i = .crc8Upd a n) := by
  obtain ⟨-, rfl⟩ | ⟨-, -, rfl⟩ | ⟨-, -, -, -, rfl⟩ | ⟨hf, -, -, rfl⟩ := exec_cases h
  · exact absurd rfl hne
  · exact absurd rfl hne
  · exact absurd rfl hne
  · exact ⟨(returned_completion i s).fault.trans hf, (completion_crc8 i s).resolve_left hne⟩

theorem State.illegal_keeps_crc8 {s t : State} {w : Command} (h : s.illegal w = .next t) :
    t.block.crc8 = s.block.crc8 := by
  obtain ⟨-, rfl⟩ | ⟨-, rfl⟩ := State.illegal_cases h <;> rfl

/-- Settles O27: a step takes a reset or presents a word; an illegal word keeps `CRC8`, and so does every command but
the two of CRC-8 that complete. -/
theorem onlyCrc8CommandsChangeCrc8 : Obligations.OnlyCrc8CommandsChangeCrc8 := by
  intro s t hstep hne
  obtain ⟨hrst, -⟩ | ⟨-, -, w, hw, hpresent⟩ := step_cases hstep
  · exact .inl hrst
  · cases hd : decode w with
    | ok i =>
      rw [State.present_ok hd] at hpresent
      obtain ⟨hclear, hi⟩ := exec_changes_crc8 hpresent hne
      exact .inr ⟨hclear, w, i, hw, hd, hi⟩
    | error e =>
      rw [State.present_error hd] at hpresent
      exact absurd (State.illegal_keeps_crc8 hpresent) hne

end Sys2Proof.Machine

/-! # CRC-16 (42_crc16.md R100 to R105) -/

namespace Sys2Proof.Machine

/-! ## The register and the bytes it absorbs (R100, R101) -/

/-- One iteration more is one more shift of the value before it. -/
theorem crc16Shift_iterate_succ (t : Half) (k : Nat) :
    crc16Shift^[k + 1] t = if (crc16Shift^[k] t).getLsbD 0 = true then (crc16Shift^[k] t >>> 1) ^^^ 0xA001
      else crc16Shift^[k] t >>> 1 := by
  rw [Function.iterate_succ_apply', crc16Shift]

/-- As long as the bit tested is 0, the iterations only shift. -/
theorem crc16Shift_iterate_of_low_zero {t : Half} {k : Nat} (h : ∀ i < k, t.getLsbD i = false) :
    crc16Shift^[k] t = t >>> k := by
  induction k with
  | zero => exact (BitVec.ushiftRight_zero t).symm
  | succ k ih =>
    have hbit : (t >>> k).getLsbD 0 = false := (BitVec.getLsbD_ushiftRight t k 0).trans (h k k.lt_succ_self)
    rw [crc16Shift_iterate_succ, ih fun i hi => h i (hi.trans k.lt_succ_self), if_neg (Bool.eq_false_iff.1 hbit),
      BitVec.shiftRight_add]

/-- The register that absorbs its own low byte has its low byte cleared, and eight shifts bring its high byte down. -/
theorem crc16Byte_lowByte (r : Half) : crc16Byte r (r.extractLsb' 0 8) = (r.extractLsb' 8 8).setWidth 16 := by
  have hlow : ∀ i < 8, (r ^^^ (r.extractLsb' 0 8).setWidth 16).getLsbD i = false := fun i hi => by
    simp [hi, show i < 16 by omega]
  rw [crc16Byte, crc16Shift_iterate_of_low_zero hlow]
  ext i hi
  by_cases h : i < 8
  · simp [h]
  · simp [h, BitVec.getLsbD_of_ge r (8 + i) (by omega)]

/-- A byte absorbed by the register that holds it starts the eight shifts at zero, and a shift keeps zero. -/
theorem crc16Byte_self (b : Byte) : crc16Byte (b.setWidth 16) b = 0 := by
  rw [crc16Byte, BitVec.xor_self]
  decide

theorem crc16Bytes_append (xs ys : List Byte) : crc16Bytes (xs ++ ys) = ys.foldl crc16Byte (crc16Bytes xs) :=
  List.foldl_append

/-- Settles O29: the sequence is the shift iterated from `r ^ zext_16(b)`. -/
theorem crc16ByteShiftsEightTimes : Obligations.Crc16ByteShiftsEightTimes :=
  ⟨fun r b => ⟨fun k => crc16Shift^[k] (r ^^^ b.setWidth 16), rfl,
    fun k _ => crc16Shift_iterate_succ (r ^^^ b.setWidth 16) k, rfl⟩, by decide⟩

/-- Settles O34: after the message the register is its CRC; the low byte leaves its high byte, and that absorbs
itself. -/
theorem crc16Residue : Obligations.Crc16Residue := fun m => by
  rw [crc16Bytes_append, List.foldl_cons, List.foldl_cons, List.foldl_nil, crc16Byte_lowByte, crc16Byte_self]

/-! ## The command on a block that is not faulted (R102 to R104) -/

/-- Within `BUF` the command returns the checksum of its range and leaves `CRC8` and `BUF` alone. -/
theorem exec_crc16Modbus_completes {s : State} (hf : s.block.status.fault = false) {a : Offset} {n : Word}
    (hr : s.InRange a.toNat n.toNat) :
    ∃ t, exec (.crc16Modbus a n) s = .next t ∧
      s.Returned t (zextHalf (crc16Bytes (s.memRead a.toNat n.toNat))) .u16 ∧
      t.block.crc8 = s.block.crc8 ∧ t.block.buf = s.block.buf :=
  ⟨_, exec_completes hf rfl fun _ => hr, s.returned_finish _ _, rfl, rfl⟩

/-- Settles O31: `MemRead` of the range is the list of its bytes in ascending order. -/
theorem crc16ModbusReturnsChecksum : Obligations.Crc16ModbusReturnsChecksum := by
  refine fun s a n => ⟨rfl, fun hf hr => ?_, fun hf hr => exec_indexError hf rfl nofun hr⟩
  rw [← State.memRead_eq_map]
  exact exec_crc16Modbus_completes hf hr

/-- Settles O32: the value is a function of the bytes that the range reads as, and these are the same. -/
theorem crc16IsStateless : Obligations.Crc16IsStateless := by
  intro s u a b n hf hfu hr hru hbytes
  obtain ⟨t, ht, hret, hkeep⟩ := exec_crc16Modbus_completes hf hr
  obtain ⟨r, hexec, hretu, -⟩ := exec_crc16Modbus_completes hfu hru
  have hread : u.memRead b.toNat n.toNat = s.memRead a.toNat n.toNat := by
    rw [State.memRead_eq_map, State.memRead_eq_map]
    exact List.map_congr_left fun k hk => hbytes k (List.mem_range.1 hk)
  exact ⟨t, r, ht, hexec, by rw [hretu.result, hret.result, hread], hret.result.symm ▸ hret, hkeep⟩

/-- Settles O33: the checksum of no bytes is the seed, and the range is checked all the same. -/
theorem crc16EmptyRange : Obligations.Crc16EmptyRange :=
  fun _ _ hf => ⟨fun ha => exec_crc16Modbus_completes hf (n := 0) ha, fun ha => exec_indexError hf rfl nofun ha⟩

end Sys2Proof.Machine

/-! # Host access (43_host_access.md R110 to R112) -/

namespace Sys2Proof.Machine

/-! ## The two commands (R110, R111) -/

theorem resultValue_u8 (b : Byte) : resultValue (zextByte b) .u8 = some (b.toNat : Int) := by
  rw [resultValue, extract_zextByte]

/-- Settles O35: the one stored byte is the operand, at the command's own offset. -/
theorem putbStoresByte : Obligations.PutbStoresByte := by
  refine fun s a b => ⟨rfl, fun hf ha => ?_, fun hf ha => exec_indexError hf rfl nofun (Nat.lt_succ_of_le ha)⟩
  have hexec : exec (.putb a b) s = .next (s.memWrite a.toNat [b]).finishNothing := exec_completes hf rfl fun _ => ha
  exact ⟨_, hexec, s.returned_memWrite _ _, rfl, readByte_stored s a.toNat [b] 0 (by simp),
    completion_sameBytesOutside (.putb a b) s⟩

/-- Settles O36: a load of one byte, whose value fits the type U8. -/
theorem getbReturnsByte : Obligations.GetbReturnsByte :=
  fun _ a => ⟨rfl, fun hf ha => exec_loads (i := .getb a) hf rfl ha rfl (resultValue_u8 _),
    fun hf ha => exec_indexError hf rfl nofun (Nat.lt_succ_of_le ha)⟩

/-! ## The same bytes as the codec's (R112) -/

/-- Two `PUTB`s at neighbouring offsets complete, and the second keeps the byte of the first. -/
theorem exec_putb_putb {s : State} {a a₁ : Offset} (hf : s.block.status.fault = false) (ha₁ : a₁.toNat = a.toNat + 1)
    (hr : a.toNat + 2 ≤ s.params.bufBytes) (x y : Byte) :
    ∃ t t₁, exec (.putb a x) s = .next t ∧ exec (.putb a₁ y) t = .next t₁ ∧ t₁.block.status.fault = false ∧
      t₁.params = s.params ∧ t₁.readByte a.toNat = x ∧ t₁.readByte (a.toNat + 1) = y := by
  obtain ⟨t, ht, hret, -, hx, -⟩ := (putbStoresByte s a x).2.1 hf (by omega)
  obtain ⟨t₁, ht₁, hret₁, -, hy, hout⟩ := (putbStoresByte t a₁ y).2.1 (hret.fault.trans hf) (by rw [hret.params]; omega)
  have hkeep : t₁.readByte a.toNat = t.readByte a.toNat := hout a.toNat (.inl (by omega))
  exact ⟨t, t₁, ht, ht₁, hret₁.fault.trans (hret.fault.trans hf), hret₁.params.trans hret.params, hkeep.trans hx,
    ha₁ ▸ hy⟩

/-- Settles O37: each read returns the bytes that the writes before it stored, and `GETB` changes none of them. -/
theorem byteAccessAgreesWithCodec : Obligations.ByteAccessAgreesWithCodec := by
  refine fun s a hf => ⟨fun b u ha hfu hp => ?_, fun a₁ ha₁ hr => ⟨fun v => ?_, fun x y => ?_⟩⟩
  · obtain ⟨t, ht, -, -, hb, -⟩ := (putbStoresByte s a b).2.1 hf ha
    refine ⟨t, ht, fun hu => ?_⟩
    obtain ⟨r, hr, hresult, -⟩ := (getbReturnsByte u a).2.1 hfu (hp ▸ ha)
    exact ⟨r, hr, by rw [hresult.result, hu, hb]⟩
  · obtain ⟨t, ht, hret, -, h0, h1, -⟩ := (wr16leStoresLeastSignificantFirst s a v).2.1 hf hr
    have hft := hret.fault.trans hf
    obtain ⟨r, hexec, hresult, -, -, hbuf⟩ := (getbReturnsByte t a).2.1 hft (by rw [hret.params]; omega)
    have hkeep : r.readByte a₁.toNat = t.readByte a₁.toNat := State.readByte_congr hbuf hresult.resets _
    obtain ⟨r₁, hexec₁, hresult₁, -⟩ := (getbReturnsByte r a₁).2.1 (hresult.fault.trans hft)
      (by rw [hresult.params, hret.params]; omega)
    exact ⟨t, r, r₁, ht, hexec, by rw [hresult.result, h0], hexec₁, by rw [hresult₁.result, hkeep, ha₁, h1]⟩
  · obtain ⟨t, t₁, ht, ht₁, hf₁, hp, hx, hy⟩ := exec_putb_putb hf ha₁ hr x y
    obtain ⟨r, hexec, hresult, -⟩ := (rd16leReturnsUnsignedHalf t₁ a).2.1 hf₁ (hp ▸ hr)
    refine ⟨t, t₁, r, ht, ht₁, hexec, by rw [hresult.result, hx, hy], fun himpl => ?_⟩
    obtain ⟨q, hexecq, hresultq, -⟩ := (rd16beIsOptional t₁ a).2.1 (hp ▸ himpl) hf₁ (hp ▸ hr)
    exact ⟨q, hexecq, by rw [hresultq.result, hx, hy]⟩

end Sys2Proof.Machine

/-! # Exceptions (60_exceptions.md R121, R126, R128) -/

namespace Sys2Proof.Machine

/-! ## The IndexError of a legal command (R121) -/

theorem completion_fault (i : Instr) (s : State) : (completion i s).block.status.fault = s.block.status.fault :=
  (returned_completion i s).fault

/-- Settles O42: a command that passes the range check completes and leaves `FAULT` at 0, and one that does not is not
`CRC8.INIT` and enters the fault. -/
theorem indexErrorExactlyWhenRangeDoesNotFit : Obligations.IndexErrorExactlyWhenRangeDoesNotFit := by
  intro s i hf hw
  by_cases hr : i ≠ .crc8Init → s.InRange i.fieldA.toNat (byteCount i)
  · have hclear := (completion_fault i s).trans hf
    refine ⟨_, exec_completes hf hw hr, fun hi => ?_, fun _ => hclear, by simp [hclear]⟩
    simpa [hclear] using hr hi
  · obtain ⟨hi, hout⟩ := Classical.not_imp.1 hr
    exact ⟨_, exec_outOfRange hf hw hi hout, fun _ => by simpa using hout, fun h => absurd h hi, fun _ => rfl⟩

/-! ## Everything a presented word can do (R124) -/

/-- Any word presented is ignored, or is fault entry with that word, or completes as the command it decodes to. -/
theorem State.present_cases {s t : State} {w : Command} (h : s.present w = .next t) :
    (s.block.status.fault = true ∧ t = s) ∨
    (s.block.status.fault = false ∧ (t = s.raise .indexError w ∨ t = s.raise .illegalCommand w)) ∨
    (s.block.status.fault = false ∧ ∃ i, decode w = .ok i ∧ t = completion i s) := by
  cases hd : decode w with
  | error e =>
    rw [State.present_error hd] at h
    exact (State.illegal_cases h).imp id fun ⟨hf, ht⟩ => .inl ⟨hf, .inr ht⟩
  | ok i =>
    rw [State.present_ok hd] at h
    obtain hignored | ⟨hf, -, ht⟩ | ⟨hf, -, -, -, ht⟩ | ⟨hf, -, -, ht⟩ := exec_cases h
    · exact .inl hignored
    · exact .inr (.inl ⟨hf, .inr (encode_eq_of_decode hd ▸ ht)⟩)
    · exact .inr (.inl ⟨hf, .inl (encode_eq_of_decode hd ▸ ht)⟩)
    · exact .inr (.inr ⟨hf, i, rfl, ht⟩)

/-- Settles O44: of the three things a presented word can do, only fault entry sets `FAULT`. -/
theorem faultsArePrecise : Obligations.FaultsArePrecise := by
  intro s t w h hf hfault
  obtain ⟨hf', -⟩ | ⟨-, rfl | rfl⟩ | ⟨-, i, -, rfl⟩ := State.present_cases h
  · exact absurd (hf'.symm.trans hf) (by decide)
  · exact ⟨.inl (s.faulted_raise .indexError w), s.readByte_raise .indexError w⟩
  · exact ⟨.inr (s.faulted_raise .illegalCommand w), s.readByte_raise .illegalCommand w⟩
  · rw [completion_fault, hf] at hfault
    cases hfault

/-! ## Where the host's `pc` goes (R128) -/

/-- Settles O51: an ignored word and fault entry leave the host as it is, with `FAULT` set; a completion moves `pc`
by 1, with `FAULT` at 0. -/
theorem pcStepsByOneOrStays : Obligations.PcStepsByOneOrStays := by
  intro s t hstep hrst
  obtain ⟨hrst', -⟩ | ⟨-, -, w, -, hw⟩ := step_cases hstep
  · exact absurd (hrst'.symm.trans hrst) (by decide)
  · obtain ⟨hf, rfl⟩ | ⟨-, rfl | rfl⟩ | ⟨hf, i, -, rfl⟩ := State.present_cases hw
    · simp [hf]
    · simp
    · simp
    · have hret := returned_completion i s
      simp [hret.pc, hret.prog, hret.fault, hf]

end Sys2Proof.Machine

/-! # The command word, its commands and the words of R55 (30_encoding.md R50 to R55) -/

namespace Sys2Proof

/-- The fields of a command's word are accepted as the command's operands: the bits that must be 0 are 0, and a narrow
value is read back from the low end of `B`. -/
theorem decodeOperands_eq_ok (i : Instr) : decodeOperands i.opcode i.fieldA i.fieldB = .ok i := by
  cases i with
  | wr16le a v =>
    simp [Instr.opcode, Instr.fieldA, Instr.fieldB, decodeOperands, extract_high_of_half, extract_low_of_half]
  | wr16be a v =>
    simp [Instr.opcode, Instr.fieldA, Instr.fieldB, decodeOperands, extract_high_of_half, extract_low_of_half]
  | putb a b =>
    simp [Instr.opcode, Instr.fieldA, Instr.fieldB, decodeOperands, extract_high_of_byte, extract_low_of_byte]
  | _ => rfl

/-- Settles O1: the four fields of the word are those the encoder packed, and the decoder accepts each of them. -/
theorem decodeOfEncodeIsIdentity : Obligations.DecodeOfEncodeIsIdentity := by
  intro i
  obtain ⟨hop, hrsv, ha, hb⟩ := Laws.Encoding.of_pack i
  rw [decode_eq_ok_iff, ha, hb]
  exact ⟨hop, hrsv, decodeOperands_eq_ok i⟩

/-- Settles O2: the decoded command packs the word again, and the fields of a packed word are what was packed. -/
theorem decodedWordIsExact : Obligations.DecodedWordIsExact := by
  intro w i h
  obtain rfl := encode_eq_of_decode h
  obtain ⟨-, -, ha, hb⟩ := Laws.Encoding.of_pack i
  exact ⟨rfl, ha.symm, hb.symm, Command.toNat_pack _ _ _⟩

/-- Settles O6: each listed word is run through the decoder. -/
theorem listedWordsDecodeAsTabled : Obligations.ListedWordsDecodeAsTabled := by
  unfold Obligations.ListedWordsDecodeAsTabled
  decide

end Sys2Proof

/-! # `STATUS` as the host reads it (10_state.md R14) -/

namespace Sys2Proof.Machine

/-- Where the four fields of the register lie, whatever codes they hold. -/
theorem statusFields_of_append : ∀ (r c : BitVec 3) (f : Bool),
    (0#1 ++ r ++ c ++ BitVec.ofBool f).getLsbD 0 = f ∧ (0#1 ++ r ++ c ++ BitVec.ofBool f).extractLsb' 1 3 = c ∧
      (0#1 ++ r ++ c ++ BitVec.ofBool f).extractLsb' 4 3 = r ∧
      (0#1 ++ r ++ c ++ BitVec.ofBool f).getLsbD 7 = false := by decide

theorem Cause.code_le (k : Cause) : k.code.toNat ≤ 2 := by cases k <;> decide

theorem RType.code_le (ty : RType) : ty.code.toNat ≤ 4 := by cases ty <;> decide

/-- Settles O39: the register is its four fields put together, and both enumerations are closed. -/
theorem statusWordLayout : Obligations.StatusWordLayout := by
  refine ⟨fun st => ?_, rfl, rfl, rfl, rfl, rfl, rfl, rfl, rfl⟩
  obtain ⟨hfault, hcause, hrtype, hzero⟩ := statusFields_of_append st.rtype.code st.cause.code st.fault
  exact ⟨hfault, hcause, hrtype, hzero, st.cause.code_le, st.rtype.code_le⟩

end Sys2Proof.Machine

/-! # The CRCs as bit-serial registers (41_crc8.md R90, R91; 42_crc16.md R100, R101) -/

namespace Sys2Proof.Machine

/-- One bit shifted into the CRC-8 register from the left end: the feedback is bit 7 against the incoming bit. -/
def crc8Serial (t : Byte) (x : Bool) : Byte := if (t.getLsbD 7 ^^ x) = true then (t <<< 1) ^^^ 0x07 else t <<< 1

/-- One bit shifted into the CRC-16 register from the right end: the feedback is bit 0 against the incoming bit. -/
def crc16Serial (t : Half) (x : Bool) : Half := if (t.getLsbD 0 ^^ x) = true then (t >>> 1) ^^^ 0xA001 else t >>> 1

/-- A register that holds `d` on top and is fed the bit of `d` that comes up next shifts as if `d` were not there. -/
theorem crc8Serial_xor (t d : Byte) : crc8Serial (t ^^^ d) (d.getLsbD 7) = crc8Shift t ^^^ (d <<< 1) := by
  simp only [crc8Serial, crc8Shift, BitVec.getLsbD_xor, Bool.xor_assoc, Bool.xor_self, Bool.xor_false,
    BitVec.shiftLeft_xor_distrib]
  split
  · rw [BitVec.xor_assoc, BitVec.xor_assoc, BitVec.xor_comm (d <<< 1)]
  · rfl

theorem crc16Serial_xor (t d : Half) : crc16Serial (t ^^^ d) (d.getLsbD 0) = crc16Shift t ^^^ (d >>> 1) := by
  simp only [crc16Serial, crc16Shift, BitVec.getLsbD_xor, Bool.xor_assoc, Bool.xor_self, Bool.xor_false,
    BitVec.ushiftRight_xor_distrib]
  split
  · rw [BitVec.xor_assoc, BitVec.xor_assoc, BitVec.xor_comm (d >>> 1)]
  · rfl

/-- After `k` bits of `b` the serial register is the byte-wise one with the bits of `b` not yet fed on top. -/
theorem foldl_crc8Serial_range (c b : Byte) {k : Nat} (hk : k ≤ 8) :
    (List.range k).foldl (fun t j => crc8Serial t (b.getLsbD (7 - j))) c = crc8Shift^[k] (c ^^^ b) ^^^ (b <<< k) := by
  induction k with
  | zero => simp
  | succ k ih =>
    have hbit : b.getLsbD (7 - k) = (b <<< k).getLsbD 7 := by
      rw [BitVec.getLsbD_shiftLeft]
      simp [show ¬ 7 < k by omega]
    rw [List.range_succ, List.foldl_append, ih (by omega), List.foldl_cons, List.foldl_nil, hbit, crc8Serial_xor,
      Function.iterate_succ_apply', BitVec.shiftLeft_add]

theorem foldl_crc16Serial_range (r d : Half) (k : Nat) :
    (List.range k).foldl (fun t j => crc16Serial t (d.getLsbD j)) r = crc16Shift^[k] (r ^^^ d) ^^^ (d >>> k) := by
  induction k with
  | zero => simp
  | succ k ih =>
    have hbit : d.getLsbD k = (d >>> k).getLsbD 0 := by simp
    rw [List.range_succ, List.foldl_append, ih, List.foldl_cons, List.foldl_nil, hbit, crc16Serial_xor,
      Function.iterate_succ_apply', BitVec.shiftRight_add]

/-- Eight bits, bit 7 first, are the byte. -/
theorem crc8Byte_eq_foldl_serial (c b : Byte) :
    crc8Byte c b = ((List.range 8).map fun k => b.getLsbD (7 - k)).foldl crc8Serial c := by
  rw [List.foldl_map, foldl_crc8Serial_range c b le_rfl, BitVec.shiftLeft_eq_zero le_rfl, BitVec.xor_zero, crc8Byte]

/-- Eight bits, bit 0 first, are the byte. -/
theorem crc16Byte_eq_foldl_serial (r : Half) (b : Byte) :
    crc16Byte r b = ((List.range 8).map b.getLsbD).foldl crc16Serial r := by
  have hbits : (List.range 8).map b.getLsbD = (List.range 8).map (b.setWidth 16).getLsbD :=
    List.map_congr_left fun k hk => by simp [show k < 16 from (List.mem_range.1 hk).trans (by decide)]
  have hgone : b.setWidth 16 >>> 8 = (0 : Half) := by ext i hi; simp
  rw [hbits, List.foldl_map, foldl_crc16Serial_range, hgone, crc16Byte]
  exact BitVec.xor_zero.symm

/-- Settles O22: byte by byte, the eight iterations are the register fed the byte's eight bits. -/
theorem crc8EqualsBitSerialDivision : Obligations.Crc8EqualsBitSerialDivision := by
  intro bs c
  rw [List.foldl_flatMap]
  exact List.foldl_ext _ _ _ fun t b _ => crc8Byte_eq_foldl_serial t b

/-- Settles O30: byte by byte, the eight iterations are the register fed the byte's eight bits. -/
theorem crc16EqualsBitSerialDivision : Obligations.Crc16EqualsBitSerialDivision := by
  intro bs
  rw [List.foldl_flatMap]
  exact List.foldl_ext _ _ _ fun t b _ => crc16Byte_eq_foldl_serial t b

end Sys2Proof.Machine

/-! # Memory in canonical form, and bytes never written (10_state.md sections 2 and 7) -/

namespace Sys2Proof.Machine

theorem Memory.risingFrom_cons {lo k : Nat} {c : Byte} {m : Memory} :
    Memory.risingFrom lo ((k, c) :: m) = true ↔ lo ≤ k ∧ Memory.risingFrom (k + 1) m = true := by
  simp [Memory.risingFrom]

/-- No index below the bound that the entries rise from is listed. -/
theorem Memory.le_of_lookup_eq_some {m : Memory} {lo i : Nat} {b : Byte} (hm : Memory.risingFrom lo m = true)
    (h : Memory.lookup m i = some b) : lo ≤ i := by
  induction m generalizing lo with
  | nil => cases h
  | cons e m ih =>
    obtain ⟨k, c⟩ := e
    obtain ⟨hlo, hrest⟩ := Memory.risingFrom_cons.1 hm
    rw [Memory.lookup_cons] at h
    split at h
    · omega
    · have := ih hrest h
      omega

/-- Both memories list the lower of their first indexes, so these agree, and so do their bytes; below the second entry
of either only the first is listed, so the rests list the same bytes too. -/
theorem Memory.eq_of_lookup_eq {m m' : Memory} {lo lo' : Nat} (hm : Memory.risingFrom lo m = true)
    (hm' : Memory.risingFrom lo' m' = true) (h : ∀ i, Memory.lookup m i = Memory.lookup m' i) : m = m' := by
  induction m generalizing lo lo' m' with
  | nil =>
    cases m' with
    | nil => rfl
    | cons e' m' =>
      obtain ⟨k', c'⟩ := e'
      simpa [Memory.lookup_cons] using h k'
  | cons e m ih =>
    obtain ⟨k, c⟩ := e
    cases m' with
    | nil => simpa [Memory.lookup_cons] using h k
    | cons e' m' =>
      obtain ⟨k', c'⟩ := e'
      have hrest := (Memory.risingFrom_cons.1 hm).2
      have hrest' := (Memory.risingFrom_cons.1 hm').2
      have hle : k ≤ k' := Memory.le_of_lookup_eq_some (Memory.risingFrom_cons.2 ⟨le_rfl, hrest⟩)
        ((h k').trans (if_pos rfl))
      have hge : k' ≤ k := Memory.le_of_lookup_eq_some (Memory.risingFrom_cons.2 ⟨le_rfl, hrest'⟩)
        ((h k).symm.trans (if_pos rfl))
      obtain rfl := Nat.le_antisymm hle hge
      obtain rfl : c = c' := by simpa [Memory.lookup_cons] using h k
      congr 1
      refine ih hrest hrest' fun i => ?_
      by_cases hi : i = k
      · have hnone {n : Memory} (hn : Memory.risingFrom (k + 1) n = true) : Memory.lookup n i = none :=
          Option.eq_none_iff_forall_ne_some.2 fun b hb => by
            have := Memory.le_of_lookup_eq_some hn hb
            omega
        rw [hnone hrest, hnone hrest']
      · simpa [Memory.lookup_cons, hi] using h i

/-- Settles O57: both memories rise from 0. -/
theorem canonicalMemoryIsUnique : Obligations.CanonicalMemoryIsUnique :=
  fun _ _ hm hm' h => Memory.eq_of_lookup_eq hm hm' h

theorem Memory.lookup_eq_none {m : Memory} {i : Nat} (h : ∀ e ∈ m, e.1 ≠ i) : Memory.lookup m i = none := by
  induction m with
  | nil => rfl
  | cons e m ih =>
    obtain ⟨hne, hrest⟩ := List.forall_mem_cons.1 h
    exact (if_neg hne.symm).trans (ih hrest)

theorem State.readByte_unwritten {s : State} {i : Nat} (h : ∀ e ∈ s.block.buf, e.1 ≠ i) :
    s.readByte i = Config.resetByte s.resets i := by
  rw [State.readByte, Memory.lookup_eq_none h, Option.getD_none]

/-- Settles O38: the first `GETB` returns the free byte, and leaves the state to read it from again. -/
theorem unwrittenByteReadsAsFreeValue : Obligations.UnwrittenByteReadsAsFreeValue := by
  intro s a hf ha hfree
  obtain ⟨t, ht, hret, -, -, hbuf⟩ := (getbReturnsByte s a).2.1 hf ha
  obtain ⟨u, hu, hretu, -⟩ := (getbReturnsByte t a).2.1 (hret.fault.trans hf) (hret.params ▸ ha)
  refine ⟨t, u, ht, hu, ?_, ?_⟩
  · rw [hret.result, State.readByte_unwritten hfree]
  · rw [hretu.result, hret.result, State.readByte_congr hbuf hret.resets]

end Sys2Proof.Machine

/-! # What a presented word leaves in the output registers, and which check decides (10_state.md section 4;
60_exceptions.md sections 3 and 4) -/

namespace Sys2Proof.Machine

/-- A value of width 0 is 0 (R13). -/
theorem completion_result_eq_zero {i : Instr} {s : State} (h : (completion i s).block.status.rtype = .none) :
    (completion i s).block.result = 0 := by
  have hfits := completion_fits i s
  rw [h] at hfits
  exact BitVec.eq_of_toNat_eq (Nat.lt_one_iff.1 hfits)

/-- Settles O40: a completion fits its type, and neither an ignored word nor fault entry touches `RESULT` or `RTYPE`. -/
theorem resultHoldsReturnedValue : Obligations.ResultHoldsReturnedValue := by
  intro s t w h
  obtain ⟨hf, rfl⟩ | ⟨-, rfl | rfl⟩ | ⟨hf, i, -, rfl⟩ := State.present_cases h
  · exact ⟨fun hclear => by simp [hf] at hclear, fun _ => ⟨rfl, rfl⟩⟩
  · exact ⟨fun _ => nofun, fun _ => ⟨rfl, rfl⟩⟩
  · exact ⟨fun _ => nofun, fun _ => ⟨rfl, rfl⟩⟩
  · refine ⟨fun _ _ => ⟨completion_fits i s, completion_result_eq_zero⟩, fun hfault => ?_⟩
    rw [completion_fault, hf] at hfault
    cases hfault

/-- Settles O41: only fault entry writes `FCMD`, and the reset event clears it. -/
theorem fcmdRecordsFaultingWord : Obligations.FcmdRecordsFaultingWord := by
  refine ⟨fun s t w h => ?_, fun s t hstep hrst => ?_⟩
  · obtain ⟨hf, rfl⟩ | ⟨hf, rfl | rfl⟩ | ⟨hf, i, -, rfl⟩ := State.present_cases h
    · exact ⟨fun hclear => by simp [hf] at hclear, fun _ => rfl⟩
    · simp [hf]
    · simp [hf]
    · exact ⟨by simp [completion_fault, hf], fun _ => (returned_completion i s).fcmd⟩
  · rw [step_reset hrst] at hstep
    cases hstep
    rfl

/-- Settles O43: the checks are met in the order in which `exec` makes them. -/
theorem firstCheckDecides : Obligations.FirstCheckDecides := by
  intro s w
  split
  · exact State.present_faulted ‹_› w
  · have hf : s.block.status.fault = false := by simpa using ‹¬ s.block.status.fault = true›
    split
    · exact ⟨_, State.present_of_not_legal hf ‹_›, State.faulted_raise _ _ _⟩
    · obtain ⟨i, hd, hw⟩ := legal_iff_decode.1 (by simpa using ‹¬ legal s.params w = false›)
      refine ⟨i, hd, ?_⟩
      rw [State.present_ok hd]
      split
      next hout =>
        rw [← encode_eq_of_decode hd]
        exact exec_indexError hf hw hout.1 hout.2
      next hin =>
        have hr (hi : i ≠ .crc8Init) : s.InRange i.fieldA.toNat (byteCount i) := Nat.not_lt.1 fun hout => hin ⟨hi, hout⟩
        exact ⟨_, _, _, exec_completes hf hw hr, returned_completion i s, completion_sameBytesOutside i s⟩

/-! ## Steps that present a word (10_state.md R17) -/

theorem step_present {s : State} {w : Command} (hrst : s.driver.rst = false) (hreset : 0 < s.resets)
    (hw : s.driver.prog[s.driver.pc]? = some w) : step s = s.present w := by
  simp [step, State.transact, hrst, hw, hreset.ne']

/-- Settles O45: the word is ignored before it is looked at, and the verdict looks at `FAULT` before `pc`. -/
theorem faultedBlockIgnoresCommands : Obligations.FaultedBlockIgnoresCommands := by
  intro s hf
  have hverdict : s.verdict = .endedInFault s.block.status.cause := if_pos hf
  refine ⟨State.present_faulted hf, fun w hrst hreset hw => ?_, hverdict, hverdict ▸ nofun⟩
  rw [step_present hrst hreset hw, State.present_faulted hf]

/-- Settles O49: a word that decodes is presented as its command. -/
theorem stepRunsDecodedCommand : Obligations.StepRunsDecodedCommand :=
  fun s _ _ hrst hreset hw hd => (step_present hrst hreset hw).trans (State.present_ok hd s)

theorem exists_exec_eq_next (i : Instr) (s : State) : ∃ t, exec i s = .next t := by
  by_cases hf : s.block.status.fault = true
  · exact ⟨s, exec_faulted hf i⟩
  replace hf : s.block.status.fault = false := by simpa using hf
  by_cases hw : i.wellFormed s.params = true
  · obtain ⟨t, ht, -⟩ := indexErrorExactlyWhenRangeDoesNotFit s i hf hw
    exact ⟨t, ht⟩
  · exact ⟨_, exec_absent hf (by simpa using hw)⟩

theorem State.exists_present_eq_next (s : State) (w : Command) : ∃ t, s.present w = .next t := by
  cases hd : decode w with
  | ok i => exact State.present_ok hd s ▸ exists_exec_eq_next i s
  | error e =>
    rw [State.present_error hd, State.illegal]
    split <;> exact ⟨_, rfl⟩

/-- Everything a step can answer, with the case it answers it in (logs 6 and 7). -/
theorem step_outcomes (s : State) :
    (s.driver.rst = true ∧ ∃ t, step s = .next t) ∨
    (s.driver.rst = false ∧ s.driver.prog.length ≤ s.driver.pc ∧ step s = .fault .noCommand) ∨
    (s.driver.rst = false ∧ s.driver.pc < s.driver.prog.length ∧ s.resets = 0 ∧ step s = .refused .neverReset) ∨
    (s.driver.rst = false ∧ s.driver.pc < s.driver.prog.length ∧ 0 < s.resets ∧ ∃ t, step s = .next t) := by
  by_cases hrst : s.driver.rst = true
  · exact .inl ⟨hrst, _, step_reset hrst⟩
  replace hrst : s.driver.rst = false := by simpa using hrst
  by_cases hpc : s.driver.prog.length ≤ s.driver.pc
  · exact .inr (.inl ⟨hrst, hpc, by simp [step, State.transact, hrst, hpc]⟩)
  replace hpc : s.driver.pc < s.driver.prog.length := Nat.lt_of_not_le hpc
  have hw := List.getElem?_eq_getElem hpc
  by_cases hreset : s.resets = 0
  · exact .inr (.inr (.inl ⟨hrst, hpc, hreset, by simp [step, State.transact, hrst, hw, hreset]⟩))
  · replace hreset := Nat.pos_of_ne_zero hreset
    exact .inr (.inr (.inr ⟨hrst, hpc, hreset, step_present hrst hreset hw ▸ s.exists_present_eq_next _⟩))

/-- Settles O50: the four cases of a step exclude each other, and each has its own outcome. -/
theorem stepStopsOnlyOutsideTransactions : Obligations.StepStopsOnlyOutsideTransactions := by
  intro s
  obtain ⟨hrst, t, ht⟩ | ⟨hrst, hpc, ht⟩ | ⟨hrst, hpc, hreset, ht⟩ | ⟨hrst, hpc, hreset, t, ht⟩ := step_outcomes s
  · simp [ht, hrst]
  · simp [ht, hrst, hpc, hpc.not_gt]
  · simp [ht, hrst, hpc, hpc.not_ge, hreset, eq_comm]
  · simp [ht, hrst, hpc.not_ge, hreset.ne']

/-! ## The reset event and the state after it (70_reset_and_hazards.md R140) -/

/-- Settles O53: the reset lists no byte, so each reads as the free byte of the new count. -/
theorem resetForgetsBuf : Obligations.ResetForgetsBuf :=
  fun s hrst => ⟨s.takeReset, step_reset hrst, rfl, rfl, rfl, rfl, rfl, rfl, fun _ => State.readByte_unwritten nofun⟩

/-- Settles O54: every clause is read off the literal state. -/
theorem resetStateIsAsTabled : Obligations.ResetStateIsAsTabled :=
  ⟨rfl, rfl, by decide, rfl, rfl, rfl, rfl, rfl, rfl, ⟨by decide, by decide, rfl, rfl⟩⟩

end Sys2Proof.Machine

/-! # Frames (20_memory.md R35, R37; 40_bytecodec.md R70; 41_crc8.md R96) -/

namespace Sys2Proof.Machine

/-! ## Every command -/

theorem State.keepsRest_refl (s : State) : s.KeepsRest s := ⟨rfl, rfl, rfl, rfl, fun _ => ⟨rfl, rfl⟩⟩

theorem State.keepsRest_raise {s : State} (hf : s.block.status.fault = false) (k : Cause) (cmd : Command) :
    s.KeepsRest (s.raise k cmd) := ⟨rfl, rfl, rfl, rfl, fun h => by simp [hf] at h⟩

theorem State.Returned.keepsRest {s t : State} {v : Word} {ty : RType} (h : s.Returned t v ty) : s.KeepsRest t :=
  ⟨h.params, h.resets, h.prog, h.rst, fun _ => ⟨h.cause, h.fcmd⟩⟩

theorem exec_keepsRest {i : Instr} {s t : State} (h : exec i s = .next t) : s.KeepsRest t := by
  obtain ⟨-, rfl⟩ | ⟨hf, -, rfl⟩ | ⟨hf, -, -, -, rfl⟩ | ⟨-, -, -, rfl⟩ := exec_cases h
  · exact State.keepsRest_refl _
  · exact State.keepsRest_raise hf _ _
  · exact State.keepsRest_raise hf _ _
  · exact (returned_completion i s).keepsRest

theorem exec_sameBytesOutside {i : Instr} {s t : State} (h : exec i s = .next t) :
    s.SameBytesOutside t i.fieldA.toNat (byteCount i) := by
  obtain ⟨-, rfl⟩ | ⟨-, -, rfl⟩ | ⟨-, -, -, -, rfl⟩ | ⟨-, -, -, rfl⟩ := exec_cases h
  · exact fun _ _ => rfl
  · exact fun _ _ => rfl
  · exact fun _ _ => rfl
  · exact completion_sameBytesOutside i s

theorem exec_keeps_crc8 {i : Instr} {s t : State} (h : exec i s = .next t) (hinit : i ≠ .crc8Init)
    (hupd : ∀ a n, i ≠ .crc8Upd a n) : t.block.crc8 = s.block.crc8 := by
  by_contra hne
  obtain ⟨-, rfl | ⟨a, n, rfl⟩⟩ := exec_changes_crc8 h hne
  · exact hinit rfl
  · exact hupd a n rfl

/-- Settles O46: a storing command is none of the CRC-8 commands, and its range is the bytes it stores to. -/
theorem storingCommandsFrame : Obligations.StoringCommandsFrame := by
  refine fun s t a => ⟨fun v h => ?_, fun v h => ?_, fun b h => ?_⟩
  · obtain h | h := h <;> exact ⟨exec_sameBytesOutside h, exec_keeps_crc8 h nofun nofun, exec_keepsRest h⟩
  · obtain h | h := h <;> exact ⟨exec_sameBytesOutside h, exec_keeps_crc8 h nofun nofun, exec_keepsRest h⟩
  · exact ⟨exec_sameBytesOutside h, exec_keeps_crc8 h nofun nofun, exec_keepsRest h⟩

/-! ## What a completion reads -/

theorem State.memRead_congr_offsets {s u : State} {addr n : Nat}
    (h : ∀ k, k < n → u.readByte (addr + k) = s.readByte (addr + k)) : u.memRead addr n = s.memRead addr n := by
  rw [State.memRead_eq_map, State.memRead_eq_map]
  exact List.map_congr_left fun k hk => h k (List.mem_range.1 hk)

theorem State.readLe16_congr {s u : State} {a : Nat} (h : ∀ k, k < 2 → u.readByte (a + k) = s.readByte (a + k)) :
    u.readLe16 a = s.readLe16 a := congrArg₂ (· ++ ·) (h 1 (by decide)) (h 0 (by decide))

theorem State.readBe16_congr {s u : State} {a : Nat} (h : ∀ k, k < 2 → u.readByte (a + k) = s.readByte (a + k)) :
    u.readBe16 a = s.readBe16 a := congrArg₂ (· ++ ·) (h 0 (by decide)) (h 1 (by decide))

theorem State.readLe32_congr {s u : State} {a : Nat} (h : ∀ k, k < 4 → u.readByte (a + k) = s.readByte (a + k)) :
    u.readLe32 a = s.readLe32 a :=
  congrArg₂ (· ++ ·) (congrArg₂ (· ++ ·) (congrArg₂ (· ++ ·) (h 3 (by decide)) (h 2 (by decide))) (h 1 (by decide)))
    (h 0 (by decide))

theorem State.readBe32_congr {s u : State} {a : Nat} (h : ∀ k, k < 4 → u.readByte (a + k) = s.readByte (a + k)) :
    u.readBe32 a = s.readBe32 a :=
  congrArg₂ (· ++ ·) (congrArg₂ (· ++ ·) (congrArg₂ (· ++ ·) (h 0 (by decide)) (h 1 (by decide))) (h 2 (by decide)))
    (h 3 (by decide))

theorem completion_rtype (i : Instr) (s u : State) :
    (completion i u).block.status.rtype = (completion i s).block.status.rtype := by
  cases i <;> rfl

section SameInputs

variable {i : Instr} {s u : State}
  (hbytes : ∀ k, k < byteCount i → u.readByte (i.fieldA.toNat + k) = s.readByte (i.fieldA.toNat + k))
include hbytes

/-- The bytes of the range after a completion are the stored ones, or those from before. -/
theorem completion_readByte_congr {k : Nat} (hk : k < byteCount i) :
    (completion i u).readByte (i.fieldA.toNat + k) = (completion i s).readByte (i.fieldA.toNat + k) := by
  have stored (bs : List Byte) (hl : k < bs.length) := (readByte_stored u i.fieldA.toNat bs k hl).trans
    (readByte_stored s i.fieldA.toNat bs k hl).symm
  cases i with
  | wr16le a v => exact stored (bytesLe16 v) hk
  | wr16be a v => exact stored (bytesBe16 v) hk
  | wr32le a v => exact stored (bytesLe32 v) hk
  | wr32be a v => exact stored (bytesBe32 v) hk
  | putb a b => exact stored [b] hk
  | _ => exact hbytes k hk

variable (hcrc : u.block.crc8 = s.block.crc8)
include hcrc

theorem completion_crc8_congr : (completion i u).block.crc8 = (completion i s).block.crc8 := by
  cases i with
  | crc8Init => rfl
  | crc8Upd a n =>
    have hread : u.memRead a.toNat n.toNat = s.memRead a.toNat n.toNat := State.memRead_congr_offsets hbytes
    rw [completion, completion, State.crc8Update_crc8, State.crc8Update_crc8, hcrc, hread]
  | _ => exact hcrc

theorem completion_result_congr : (completion i u).block.result = (completion i s).block.result := by
  cases i with
  | rd16le a => exact congrArg zextHalf (State.readLe16_congr hbytes)
  | rd16be a => exact congrArg zextHalf (State.readBe16_congr hbytes)
  | rdi16le a => exact congrArg zextHalf (State.readLe16_congr hbytes)
  | rd32le a => exact State.readLe32_congr hbytes
  | rd32be a => exact State.readBe32_congr hbytes
  | crc8Upd a n => exact congrArg zextByte (completion_crc8_congr hbytes hcrc)
  | crc16Modbus a n =>
    exact congrArg (fun bs => zextHalf (crc16Bytes bs)) (State.memRead_congr_offsets (addr := a.toNat) hbytes)
  | getb a => exact congrArg zextByte (hbytes 0 Nat.one_pos)
  | _ => rfl

end SameInputs

/-- The value the host reads is a function of `RESULT` and `RTYPE`. -/
theorem State.value_congr {t r : State} (hresult : r.block.result = t.block.result)
    (hrtype : r.block.status.rtype = t.block.status.rtype) : r.value = t.value := by
  rw [State.value, State.value, hresult, hrtype]

/-- Settles O48: the checks ask for the parameters alone, so both commands are fault entry or both complete, and a
completion computes from `CRC8` and the bytes of the range. -/
theorem effectDependsOnlyOnOperandsBufAndCrc8 : Obligations.EffectDependsOnlyOnOperandsBufAndCrc8 := by
  intro s u i hf hfu hp hcrc hbytes
  by_cases hw : i.wellFormed s.params = true
  · by_cases hr : i ≠ .crc8Init → s.InRange i.fieldA.toNat (byteCount i)
    · have hru : i ≠ .crc8Init → u.InRange i.fieldA.toNat (byteCount i) := by rwa [State.InRange, hp]
      have hresult := completion_result_congr hbytes hcrc
      have hrtype := completion_rtype i s u
      exact ⟨_, _, exec_completes hf hw hr, exec_completes hfu (hp ▸ hw) hru,
        by rw [completion_fault, completion_fault, hf, hfu], completion_crc8_congr hbytes hcrc,
        fun k hk => completion_readByte_congr hbytes hk, fun _ => ⟨hresult, hrtype, State.value_congr hresult hrtype⟩⟩
    · obtain ⟨hi, hout⟩ := Classical.not_imp.1 hr
      have houtu : ¬ u.InRange i.fieldA.toNat (byteCount i) := by rwa [State.InRange, hp]
      exact ⟨_, _, exec_outOfRange hf hw hi hout, exec_outOfRange hfu (hp ▸ hw) hi houtu, rfl, hcrc, hbytes, nofun⟩
  · replace hw : i.wellFormed s.params = false := by simpa using hw
    exact ⟨_, _, exec_absent hf hw, exec_absent hfu (hp ▸ hw), rfl, hcrc, hbytes, nofun⟩

/-! ## Commands that store nothing -/

/-- The commands that write to `BUF` (20_memory.md section 4). -/
def storesBytes : Instr → Bool
  | .wr16le _ _ => true
  | .wr16be _ _ => true
  | .wr32le _ _ => true
  | .wr32be _ _ => true
  | .putb _ _ => true
  | .rd16le _ => false
  | .rd16be _ => false
  | .rd32le _ => false
  | .rd32be _ => false
  | .rdi16le _ => false
  | .crc8Init => false
  | .crc8Upd _ _ => false
  | .crc16Modbus _ _ => false
  | .getb _ => false

theorem completion_buf {i : Instr} (h : storesBytes i = false) (s : State) :
    (completion i s).block.buf = s.block.buf := by
  cases i with
  | wr16le a v => cases h
  | wr16be a v => cases h
  | wr32le a v => cases h
  | wr32be a v => cases h
  | putb a b => cases h
  | _ => rfl

theorem exec_sameBytes {i : Instr} {s t : State} (hi : storesBytes i = false) (h : exec i s = .next t) :
    s.SameBytes t := by
  obtain ⟨-, rfl⟩ | ⟨-, -, rfl⟩ | ⟨-, -, -, -, rfl⟩ | ⟨-, -, -, rfl⟩ := exec_cases h
  · exact fun _ => rfl
  · exact fun _ => rfl
  · exact fun _ => rfl
  · exact State.readByte_congr (completion_buf hi s) (returned_completion i s).resets

/-- A command that keeps its inputs does the same again: ignored or faulted it is ignored, and completed it completes
with the same value. -/
theorem exec_again {i : Instr} {s t : State} (h : exec i s = .next t) (hbytes : s.SameBytes t)
    (hcrc : t.block.crc8 = s.block.crc8) : ∃ u, exec i t = .next u ∧ u.block.result = t.block.result := by
  obtain ⟨hf, rfl⟩ | ⟨-, -, rfl⟩ | ⟨-, -, -, -, rfl⟩ | ⟨hf, hw, hr, rfl⟩ := exec_cases h
  · exact ⟨t, exec_faulted hf i, rfl⟩
  · exact ⟨_, exec_faulted rfl i, rfl⟩
  · exact ⟨_, exec_faulted rfl i, rfl⟩
  · have hret := returned_completion i s
    refine ⟨_, exec_completes (hret.fault.trans hf) (hret.params ▸ hw) (by rwa [State.InRange, hret.params]), ?_⟩
    exact completion_result_congr (fun k _ => hbytes _) hcrc

/-- Settles O47: no command of either group stores bytes, and those of the first do not touch `CRC8` either, so all
that they read is there for them to read again. -/
theorem nonStoringCommandsFrame : Obligations.NonStoringCommandsFrame := by
  intro s t i h
  have frame (hi : storesBytes i = false) (hinit : i ≠ .crc8Init) (hupd : ∀ a n, i ≠ .crc8Upd a n) :
      s.SameBytes t ∧ t.block.crc8 = s.block.crc8 ∧ s.KeepsRest t ∧
        ∃ u, exec i t = .next u ∧ u.block.result = t.block.result :=
    have hbytes := exec_sameBytes hi h
    have hcrc := exec_keeps_crc8 h hinit hupd
    ⟨hbytes, hcrc, exec_keepsRest h, exec_again h hbytes hcrc⟩
  constructor
  · rintro (⟨a, rfl | rfl | rfl | rfl | rfl | rfl⟩ | ⟨a, n, rfl⟩) <;> exact frame rfl nofun nofun
  · rintro (rfl | ⟨a, n, rfl⟩) <;> exact ⟨exec_sameBytes rfl h, exec_keepsRest h⟩

end Sys2Proof.Machine

/-! # The invariant, and how a run ends (10_state.md section 5; 70_reset_and_hazards.md R150) -/

namespace Sys2Proof.Machine

/-! ## The three things a step does keep the invariant -/

theorem State.Inv.takeReset {s : State} (h : s.Inv) : s.takeReset.Inv where
  valid := h.valid
  wasReset := Nat.succ_pos _
  memWf := Memory.wf_nil
  memInside := nofun
  faultCause := by simp
  fcmdZero := fun _ => rfl
  fcmdHeld := nofun
  resultFits := by simp [RType.width]
  pcInside := Nat.zero_le _

theorem State.Inv.raise {s : State} (h : s.Inv) {w : Command} (hw : s.driver.prog[s.driver.pc]? = some w) {k : Cause}
    (hk : k ≠ .none) : (s.raise k w).Inv where
  valid := h.valid
  wasReset := h.wasReset
  memWf := h.memWf
  memInside := h.memInside
  faultCause := by simpa using hk
  fcmdZero := nofun
  fcmdHeld := fun _ => hw
  resultFits := h.resultFits
  pcInside := h.pcInside

theorem State.Inv.completion {s : State} (h : s.Inv) (hf : s.block.status.fault = false)
    (hpc : s.driver.pc < s.driver.prog.length) {i : Instr}
    (hr : i ≠ .crc8Init → s.InRange i.fieldA.toNat (byteCount i)) : (completion i s).Inv := by
  have hret := returned_completion i s
  have hclear := hret.fault.trans hf
  refine ⟨hret.params ▸ h.valid, hret.resets ▸ h.wasReset, completion_wf i h.memWf, fun e he => ?_, ?_,
    fun _ => hret.fcmd.trans (h.fcmdZero hf), by simp [hclear], completion_fits i s, ?_⟩
  · rw [hret.params]
    obtain ⟨hlt, hi⟩ | he := completion_mem i he
    · exact hlt.trans_le (hr hi)
    · exact h.memInside e he
  · rw [hret.fault, hret.cause]
    exact h.faultCause
  · rw [hret.pc, hret.prog]
    exact hpc

theorem State.Inv.present {s t : State} {w : Command} (h : s.Inv) (hw : s.driver.prog[s.driver.pc]? = some w)
    (ht : s.present w = .next t) : t.Inv := by
  cases hd : decode w with
  | error e =>
    rw [State.present_error hd] at ht
    obtain ⟨-, rfl⟩ | ⟨-, rfl⟩ := State.illegal_cases ht
    · exact h
    · exact h.raise hw nofun
  | ok i =>
    rw [State.present_ok hd] at ht
    rw [← encode_eq_of_decode hd] at hw
    obtain ⟨-, rfl⟩ | ⟨-, -, rfl⟩ | ⟨-, -, -, -, rfl⟩ | ⟨hf, -, hr, rfl⟩ := exec_cases ht
    · exact h
    · exact h.raise hw nofun
    · exact h.raise hw nofun
    · exact h.completion hf (List.getElem?_eq_some_iff.1 hw).1 hr

/-- Settles O55: a step takes a reset or presents the word at `pc`. -/
theorem stepKeepsInvariant : Obligations.StepKeepsInvariant := by
  intro s t h hstep
  obtain ⟨-, rfl⟩ | ⟨-, -, w, hw, ht⟩ := step_cases hstep
  · exact h.takeReset
  · exact h.present hw ht

/-- Settles O56: no byte is listed, no fault is latched, and `RESULT` and `pc` are 0. -/
theorem resetSatisfiesInvariant : Obligations.ResetSatisfiesInvariant :=
  ⟨by decide, by decide, rfl, nofun, by decide, fun _ => rfl, nofun, by decide, by decide⟩

/-! ## Runs -/

theorem State.present_rst {s t : State} {w : Command} (h : s.present w = .next t) : t.driver.rst = s.driver.rst := by
  obtain ⟨-, rfl⟩ | ⟨-, rfl | rfl⟩ | ⟨-, i, -, rfl⟩ := State.present_cases h
  · rfl
  · rfl
  · rfl
  · exact (returned_completion i s).rst

/-- No step raises the reset event: the host does (log 4). -/
theorem step_rst {s t : State} (h : step s = .next t) : t.driver.rst = false := by
  obtain ⟨-, rfl⟩ | ⟨hrst, -, w, -, ht⟩ := step_cases h
  · rfl
  · exact (State.present_rst ht).trans hrst

theorem core_run_succ {s t : State} (h : step s = .next t) (k : Nat) :
    Host.Core.run Sys2Proof.core (k + 1) s = Host.Core.run Sys2Proof.core k t := by
  have hcore : Sys2Proof.core.step s = .next t := h
  simp [Host.Core.run, hcore]

/-- How a run of the list `prog` has ended (R150). -/
def State.Ended (prog : List Command) (t : State) : Prop :=
  t.driver.prog = prog ∧
    ((t.verdict = .endedWell ∧ t.driver.pc = prog.length ∧ t.block.fcmd = 0) ∨
      ∃ c, t.verdict = .endedInFault c ∧ c ≠ .none ∧ t.driver.pc < prog.length ∧ prog[t.driver.pc]? = some t.block.fcmd)

theorem State.Inv.ended_of_fault {t : State} (h : t.Inv) (hf : t.block.status.fault = true) :
    t.Ended t.driver.prog := by
  have hheld := h.fcmdHeld hf
  refine ⟨rfl, .inr ⟨_, if_pos hf, fun hnone => ?_, (List.getElem?_eq_some_iff.1 hheld).1, hheld⟩⟩
  exact absurd (hf.symm.trans (h.faultCause.2 hnone)) (by decide)

theorem State.Inv.ended_of_no_word {t : State} (h : t.Inv) (hf : t.block.status.fault = false)
    (hpc : t.driver.prog.length ≤ t.driver.pc) : t.Ended t.driver.prog :=
  ⟨rfl, .inl ⟨by simp [State.verdict, hf, hpc], Nat.le_antisymm h.pcInside hpc, h.fcmdZero hf⟩⟩

/-- A run with `n` words left has ended after at most `n` steps: each step takes a word off or latches a fault. -/
theorem State.Inv.run_ends {n : Nat} {s : State} (h : s.Inv) (hrst : s.driver.rst = false)
    (hf : s.block.status.fault = false) (hn : s.driver.prog.length - s.driver.pc = n) :
    ∃ k t, k ≤ n ∧ Host.Core.run Sys2Proof.core k s = .next t ∧ t.Ended s.driver.prog := by
  induction n generalizing s with
  | zero => exact ⟨0, s, le_rfl, rfl, h.ended_of_no_word hf (Nat.sub_eq_zero_iff_le.1 hn)⟩
  | succ n ih =>
    obtain ⟨t, ht⟩ := (stepStopsOnlyOutsideTransactions s).2.2 (.inr ⟨by omega, h.wasReset⟩)
    have hinv := stepKeepsInvariant s t h ht
    obtain ⟨hpc, -, hprog⟩ := pcStepsByOneOrStays s t ht hrst
    rw [← hprog]
    by_cases hft : t.block.status.fault = true
    · exact ⟨1, t, by omega, core_run_succ ht 0, hinv.ended_of_fault hft⟩
    · replace hft : t.block.status.fault = false := by simpa using hft
      obtain ⟨k, u, hk, hu, hended⟩ := ih hinv (step_rst ht) hft (by rw [hprog, hpc hft]; omega)
      exact ⟨k + 1, u, by omega, (core_run_succ ht k).trans hu, hended⟩

/-- Settles O58: the bound is the number of words left. -/
theorem everyRunEndsWellOrInFault : Obligations.EveryRunEndsWellOrInFault :=
  fun _ h hrst hf => h.run_ends hrst hf rfl

end Sys2Proof.Machine

/-! # The assembler (30_encoding.md R60) -/

namespace Sys2Proof.Machine

/-! ## What the assembler accepts -/

theorem legal_encode (p : Params) (i : Instr) : legal p (encode i) = i.wellFormed p := by
  rw [legal, decodeOfEncodeIsIdentity i]

theorem assemble_eq_some {p : Params} {o : Opcode} {ops : List Nat} {i : Instr} :
    assemble p o ops = some i ↔ i.opcode = o ∧ ops = operandNumbers i ∧ i.wellFormed p = true := by
  rw [assemble, Option.filter_eq_some_iff, assembleForm_eq_some, and_assoc]

/-- A command has at most two operands: the first is its field `A`, the second its field `B`. -/
theorem operandNumbers_fields (i : Instr) :
    (∀ a, (operandNumbers i)[0]? = some a → i.fieldA.toNat = a) ∧
      (∀ b, (operandNumbers i)[1]? = some b → i.fieldB.toNat = b) ∧ (operandNumbers i).length ≤ 2 := by
  have half (v : Half) : (v.setWidth 32).toNat = v.toNat := BitVec.toNat_setWidth_of_le (by decide)
  have byte (v : Byte) : (v.setWidth 32).toNat = v.toNat := BitVec.toNat_setWidth_of_le (by decide)
  cases i <;> simp [operandNumbers, Instr.fieldA, Instr.fieldB, half, byte]

/-! ## Every command of a text is one of the block -/

theorem parsePuts_eq_some {cs : List Char} {is : List Instr} (h : parsePuts cs = some is) :
    ∃ a bs, assemblePuts a bs = some is := by
  simp only [parsePuts] at h
  split at h
  · split at h
    · obtain ⟨a, -, h⟩ := Option.bind_eq_some_iff.1 h
      obtain ⟨bs, -, h⟩ := Option.bind_eq_some_iff.1 h
      exact ⟨a, bs, h⟩
    · cases h
  · cases h

theorem assembleLine_wellFormed {p : Params} {line : List Char} {is : List Instr}
    (h : assembleLine p line = some is) : ∀ i ∈ is, i.wellFormed p = true := by
  simp only [assembleLine] at h
  split at h
  · cases h
    simp
  · split at h
    · split at h
      · cases h
        simp [crc8Get, Instr.wellFormed]
      · cases h
    · split at h
      · obtain ⟨a, bs, h⟩ := parsePuts_eq_some h
        exact assemblePuts_wellFormed p h
      · obtain ⟨o, -, h⟩ := Option.bind_eq_some_iff.1 h
        obtain ⟨ops, -, h⟩ := Option.bind_eq_some_iff.1 h
        obtain ⟨i, hi, rfl⟩ := Option.map_eq_some_iff.1 h
        simpa using (assemble_eq_some.1 hi).2.2

theorem exists_of_mem_mapM {α β : Type} {f : α → Option β} {xs : List α} {ys : List β} (h : xs.mapM f = some ys)
    {y : β} (hy : y ∈ ys) : ∃ x ∈ xs, f x = some y := by
  induction xs generalizing ys with
  | nil =>
    cases h
    cases hy
  | cons x xs ih =>
    simp only [List.mapM_cons, Option.bind_eq_bind, Option.pure_def, Option.bind_eq_some_iff, Option.some.injEq] at h
    obtain ⟨z, hz, zs, hzs, rfl⟩ := h
    rcases List.mem_cons.1 hy with rfl | hy
    · exact ⟨x, List.mem_cons_self, hz⟩
    · obtain ⟨x', hx', hf⟩ := ih hzs hy
      exact ⟨x', List.mem_cons_of_mem _ hx', hf⟩

theorem assembleText_legal {p : Params} {text : List Char} {ws : List Command} (h : assembleText p text = some ws) :
    ∀ w ∈ ws, legal p w = true := by
  obtain ⟨ls, hls, rfl⟩ := Option.map_eq_some_iff.1 h
  intro w hw
  obtain ⟨i, hi, rfl⟩ := List.mem_map.1 hw
  obtain ⟨is, his, hi⟩ := List.mem_flatten.1 hi
  obtain ⟨line, -, hline⟩ := exists_of_mem_mapM hls his
  rw [legal_encode]
  exact assembleLine_wellFormed hline i hi

/-- Settles O7: an accepted command is that of its row and operand numbers, and the block has it; the commands of a
text come from there, from `CRC8.GET` and from the `PUTB`s of `PUTS`. -/
theorem assemblerNeverEmitsIllegalWord : Obligations.AssemblerNeverEmitsIllegalWord := by
  refine fun p => ⟨fun o ops i h => ?_, fun o ops i => assemble_eq_some, fun text ws => assembleText_legal⟩
  obtain ⟨hopcode, rfl, hw⟩ := assemble_eq_some.1 h
  exact ⟨(legal_encode p i).trans hw, hopcode, operandNumbers_fields i⟩

/-! ## Characters -/

/-- A character that is part of a mnemonic or a number: no blank, no line end, and no separator. -/
def isPlain (c : Char) : Bool := !isBlank c && c != '\n' && c != '-' && c != ','

theorem isPlain_digitChar : ∀ d : Fin 16,
    isPlain (Nat.digitChar d.val) = true ∧ isPlain (Nat.digitChar d.val).toUpper = true := by decide

theorem isPlain_of_mem_mnemonic (o : Opcode) : ∀ c ∈ mnemonic o, isPlain c = true :=
  List.all_eq_true.1 (by cases o <;> decide)

theorem isPlain_of_mem_digitsText {b : Nat} (hb : b ≤ 16) {t : List Char} {n : Nat} (h : DigitsText b t n) :
    ∀ c ∈ t, isPlain c = true := by
  intro c hc
  obtain ⟨d, hd, hdigit⟩ := (digitsText_spec hb h).2.2 c hc
  obtain ⟨hlower, hupper⟩ := isPlain_digitChar ⟨d, hd.trans_le hb⟩
  rcases hdigit with rfl | rfl
  · exact hlower
  · exact hupper

theorem isPlain_of_mem_numberText {t : List Char} {n : Nat} (h : NumberText t n) : ∀ c ∈ t, isPlain c = true := by
  rcases h with h | ⟨u, rfl, h⟩
  · exact isPlain_of_mem_digitsText (by decide) h
  · exact List.forall_mem_cons.2 ⟨rfl, List.forall_mem_cons.2 ⟨rfl, isPlain_of_mem_digitsText le_rfl h⟩⟩

theorem NumberText.ne_nil {t : List Char} {n : Nat} (h : NumberText t n) : t ≠ [] := by
  rcases h with h | ⟨u, rfl, -⟩
  · exact (digitsText_spec (by decide) h).1
  · exact List.cons_ne_nil _ _

theorem isBlank_of_isPlain {c : Char} (h : isPlain c = true) : isBlank c = false := by
  simp only [isPlain, Bool.and_eq_true, Bool.not_eq_true'] at h
  exact h.1.1.1

theorem notMem_of_isPlain {t : List Char} (h : ∀ c ∈ t, isPlain c = true) {c : Char} (hc : isPlain c = false) :
    c ∉ t := fun hmem => by simp [h c hmem] at hc

/-! ## Blanks and comments around a text -/

theorem trimBlanks_append_blanks {t post : List Char} (hfirst : ∀ c ∈ t.head?, isBlank c = false)
    (hlast : ∀ c ∈ t.getLast?, isBlank c = false) (hpost : ∀ c ∈ post, isBlank c = true) :
    trimBlanks (t ++ post) = t := by
  have keep {u : List Char} (hu : ∀ c ∈ u.head?, isBlank c = false) : u.dropWhile isBlank = u := by
    cases u with
    | nil => rfl
    | cons c u => exact List.dropWhile_cons_of_neg (by simp [hu c rfl])
  have hrev : (t.reverse.dropWhile isBlank).reverse = t := by
    rw [keep (by simpa using hlast), List.reverse_reverse]
  cases t with
  | nil => simp [trimBlanks, List.dropWhile_eq_nil_iff.2 hpost]
  | cons c t =>
    rw [trimBlanks, keep (u := c :: t ++ post) (by simpa using hfirst), List.reverse_append,
      List.dropWhile_append_of_pos (by simpa using hpost), hrev]

theorem trimBlanks_ne_nil {t : List Char} {c : Char} (hc : c ∈ t) (hblank : isBlank c = false) : trimBlanks t ≠ [] := by
  intro h
  have hall : ∀ d ∈ t.dropWhile isBlank, isBlank d = true := by
    simpa [trimBlanks, List.dropWhile_eq_nil_iff] using h
  rw [← List.takeWhile_append_dropWhile (p := isBlank) (l := t)] at hc
  rcases List.mem_append.1 hc with hc | hc
  · exact absurd (List.mem_takeWhile_imp hc) (by simp [hblank])
  · exact absurd (hall c hc) (by simp [hblank])

theorem beforeComment_append {t r : List Char} (h : '-' ∉ t) : beforeComment (t ++ r) = t ++ beforeComment r := by
  induction t with
  | nil => rfl
  | cons c t ih =>
    obtain ⟨hc, ht⟩ := not_or.1 (List.mem_cons.not.1 h)
    rw [List.cons_append, beforeComment, ih ht]
    · rfl
    · exact fun _ e => absurd e.symm hc

/-! ## Operands -/

theorem trimBlanks_of_numberText {t : List Char} {n : Nat} (h : NumberText t n) : trimBlanks (' ' :: t) = t := by
  have hplain (c : Char) (hc : c ∈ t) := isBlank_of_isPlain (isPlain_of_mem_numberText h c hc)
  have := trimBlanks_append_blanks (post := []) (fun c hc => hplain c (List.mem_of_head? hc))
    (fun c hc => hplain c (List.mem_of_getLast? hc)) nofun
  rwa [List.append_nil] at this

theorem operandsText_cases {t : List Char} {ns : List Nat} (h : OperandsText t ns) :
    (t = [] ∧ ns = []) ∨ (∃ ta a, NumberText ta a ∧ t = ' ' :: ta ∧ ns = [a]) ∨
    ∃ ta tb a b, NumberText ta a ∧ NumberText tb b ∧ t = ' ' :: ta ++ ',' :: ' ' :: tb ∧ ns = [a, b] := by
  match ns, h with
  | [], h => exact .inl ⟨h, rfl⟩
  | [a], ⟨ta, ha, ht⟩ => exact .inr (.inl ⟨ta, a, ha, ht, rfl⟩)
  | [a, b], ⟨ta, tb, ha, hb, ht⟩ => exact .inr (.inr ⟨ta, tb, a, b, ha, hb, ht, rfl⟩)

/-- No operand holds a line end or the start of a comment. -/
theorem notMem_operandsText {t : List Char} {ns : List Nat} (h : OperandsText t ns) {c : Char}
    (hplain : isPlain c = false) (hblank : c ≠ ' ') (hcomma : c ≠ ',') : c ∉ t := by
  have number {u : List Char} {n : Nat} (hu : NumberText u n) := notMem_of_isPlain (isPlain_of_mem_numberText hu) hplain
  obtain ⟨rfl, -⟩ | ⟨ta, a, ha, rfl, -⟩ | ⟨ta, tb, a, b, ha, hb, rfl, -⟩ := operandsText_cases h
  · exact List.not_mem_nil
  · simp [number ha, hblank]
  · simp [number ha, number hb, hblank, hcomma]

/-- Operands start with a blank and end with a number. -/
theorem operandsText_ends {t : List Char} {ns : List Nat} (h : OperandsText t ns) :
    t = [] ∨ ∃ r v n, NumberText v n ∧ t = ' ' :: (r ++ v) := by
  obtain ⟨ht, -⟩ | ⟨ta, a, ha, ht, -⟩ | ⟨ta, tb, a, b, -, hb, ht, -⟩ := operandsText_cases h
  · exact .inl ht
  · exact .inr ⟨[], ta, a, ha, ht⟩
  · exact .inr ⟨ta ++ [',', ' '], tb, b, hb, by simp [ht]⟩

theorem parseNumbers_of_operandsText {t : List Char} {ns : List Nat} (h : OperandsText t ns) :
    parseNumbers t = some ns := by
  have number {u : List Char} {n : Nat} (hu : NumberText u n) : parseNumber (trimBlanks (' ' :: u)) = some n := by
    rw [trimBlanks_of_numberText hu, parseNumber_of_numberText hu]
  have comma {u : List Char} {n : Nat} (hu : NumberText u n) : ',' ∉ ' ' :: u := by
    simp [notMem_of_isPlain (isPlain_of_mem_numberText hu) (c := ',') rfl]
  have some_text {u r : List Char} {n : Nat} (hu : NumberText u n) : trimBlanks (' ' :: u ++ r) ≠ [] := by
    obtain ⟨c, hc⟩ := List.exists_mem_of_ne_nil u hu.ne_nil
    exact trimBlanks_ne_nil (c := c) (by simp [hc]) (isBlank_of_isPlain (isPlain_of_mem_numberText hu c hc))
  obtain ⟨rfl, rfl⟩ | ⟨ta, a, ha, rfl, rfl⟩ | ⟨ta, tb, a, b, ha, hb, rfl, rfl⟩ := operandsText_cases h
  · rfl
  · rw [parseNumbers, if_neg (by simpa using some_text (r := []) ha), splitAt_of_notMem (comma ha)]
    simp [number ha]
  · rw [parseNumbers, if_neg (some_text ha), splitAt_append_cons _ (comma ha), splitAt_of_notMem (comma hb)]
    simp [number ha, number hb]

/-! ## A line -/

theorem mnemonic_ne_nil (o : Opcode) : mnemonic o ≠ [] := by cases o <;> decide

theorem find_mnemonic (o : Opcode) : (allOpcodes.find? fun o' => mnemonic o' == mnemonic o) = some o := by
  cases o <;> decide

/-- A mnemonic is the name of neither pseudo-instruction. -/
theorem mnemonic_ne_pseudo (o : Opcode) :
    mnemonic o ≠ ['C', 'R', 'C', '8', '.', 'G', 'E', 'T'] ∧ mnemonic o ≠ ['P', 'U', 'T', 'S'] := by
  cases o <;> decide

/-- A line whose text is a mnemonic and the operands after it is read as the command of that row. -/
theorem assembleLine_of_mnemonic {p : Params} {line ops : List Char} {o : Opcode}
    (htext : trimBlanks (beforeComment line) = mnemonic o ++ ops) (hops : ops = [] ∨ ∃ r, ops = ' ' :: r) :
    assembleLine p line =
      (parseNumbers ops).bind fun ns => (assemble p o ns).map fun i => [i] := by
  have hname : ∀ c ∈ mnemonic o, (!isBlank c) = true :=
    fun c hc => by simp [isBlank_of_isPlain (isPlain_of_mem_mnemonic o c hc)]
  have htake : (mnemonic o ++ ops).takeWhile (fun c => !isBlank c) = mnemonic o := by
    rw [List.takeWhile_append_of_pos hname]
    obtain rfl | ⟨r, rfl⟩ := hops <;> simp [isBlank]
  have hdrop : (mnemonic o ++ ops).dropWhile (fun c => !isBlank c) = ops := by
    rw [List.dropWhile_append_of_pos hname]
    obtain rfl | ⟨r, rfl⟩ := hops <;> simp [isBlank]
  obtain ⟨hget, hputs⟩ := mnemonic_ne_pseudo o
  simp only [assembleLine, htext, htake, hdrop, if_neg hget, if_neg hputs, find_mnemonic, Option.bind_some]
  exact if_neg (by simp [mnemonic_ne_nil o])

/-- What is left of a command's line is its mnemonic and its operands. -/
theorem trimBlanks_beforeComment_of_commandText {o : Opcode} {ops comment : List Char} {ns : List Nat}
    (hops : OperandsText ops ns) (hcomment : comment = [] ∨ ∃ c, comment = ' ' :: '-' :: '-' :: c) :
    trimBlanks (beforeComment (mnemonic o ++ ops ++ comment)) = mnemonic o ++ ops := by
  have hdash : '-' ∉ mnemonic o ++ ops := by
    simp [notMem_of_isPlain (isPlain_of_mem_mnemonic o) (c := '-') rfl,
      notMem_operandsText hops (c := '-') rfl (by decide) (by decide)]
  have hfirst : ∀ c ∈ (mnemonic o ++ ops).head?, isBlank c = false := by
    rw [List.head?_append_of_ne_nil _ (mnemonic_ne_nil o)]
    exact fun c hc => isBlank_of_isPlain (isPlain_of_mem_mnemonic o c (List.mem_of_head? hc))
  have hlast : ∀ c ∈ (mnemonic o ++ ops).getLast?, isBlank c = false := by
    obtain rfl | ⟨r, v, n, hv, rfl⟩ := operandsText_ends hops
    · rw [List.append_nil]
      exact fun c hc => isBlank_of_isPlain (isPlain_of_mem_mnemonic o c (List.mem_of_getLast? hc))
    · rw [← List.cons_append, ← List.append_assoc, List.getLast?_append_of_ne_nil _ hv.ne_nil]
      exact fun c hc => isBlank_of_isPlain (isPlain_of_mem_numberText hv c (List.mem_of_getLast? hc))
  rw [beforeComment_append hdash, trimBlanks_append_blanks hfirst hlast]
  obtain rfl | ⟨c, rfl⟩ := hcomment
  · exact nofun
  · simp [beforeComment, isBlank]

theorem assembleLine_of_commandText {p : Params} {line : List Char} {i : Instr} (h : CommandText line i)
    (hw : i.wellFormed p = true) : assembleLine p line = some [i] := by
  obtain ⟨ops, comment, hops, rfl, hcomment⟩ := h
  have htext := trimBlanks_beforeComment_of_commandText (o := i.opcode) hops
    (hcomment.imp id fun ⟨c, _, hc⟩ => ⟨c, hc⟩)
  have hfirst : ops = [] ∨ ∃ r, ops = ' ' :: r :=
    (operandsText_ends hops).imp id fun ⟨r, v, _, _, hr⟩ => ⟨r ++ v, hr⟩
  rw [assembleLine_of_mnemonic htext hfirst, parseNumbers_of_operandsText hops, Option.bind_some,
    assemble_eq_some.2 ⟨rfl, rfl, hw⟩, Option.map_some]

theorem newline_notMem_of_commandText {line : List Char} {i : Instr} (h : CommandText line i) : '\n' ∉ line := by
  obtain ⟨ops, comment, hops, rfl, hcomment⟩ := h
  have hname := notMem_of_isPlain (isPlain_of_mem_mnemonic i.opcode) (c := '\n') rfl
  have hnumbers := notMem_operandsText hops (c := '\n') rfl (by decide) (by decide)
  obtain rfl | ⟨c, hc, rfl⟩ := hcomment
  · simp [hname, hnumbers]
  · simp [hname, hnumbers, hc]

/-! ## A program -/

theorem assembleText_cons_line {p : Params} {line text : List Char} (h : '\n' ∉ line) :
    assembleText p (line ++ '\n' :: text) =
      (assembleLine p line).bind fun is => (assembleText p text).map fun ws => is.map encode ++ ws := by
  rw [assembleText, splitAt_append_cons text h, List.mapM_cons, assembleText]
  cases assembleLine p line with
  | none => rfl
  | some is => cases (splitAt '\n' text).mapM (assembleLine p) <;> simp

/-- Settles O59, by induction on the lines: the first is read as its command, and the text after its newline is that
of the rest. -/
theorem assemblerReadsProgramText : Obligations.AssemblerReadsProgramText := by
  intro p lines
  induction lines with
  | nil => exact fun _ => rfl
  | cons l lines ih =>
    intro h
    obtain ⟨⟨hl, hw⟩, hrest⟩ := List.forall_mem_cons.1 h
    rw [List.flatMap_cons, List.append_assoc, List.singleton_append,
      assembleText_cons_line (newline_notMem_of_commandText hl), assembleLine_of_commandText hl hw, ih hrest]
    rfl

end Sys2Proof.Machine
